-- ==== Sys2Proof/Word.lean ====
section
/-! DEFINITION. The word types of the engine: bytes and 7-bit slave addresses (spec/00_scope.md R9, R11, R12). -/

namespace Sys2Proof

/-- An unsigned 8-bit value, bit 0 the least significant (R11, R12). -/
abbrev Byte := BitVec 8

/-- A 7-bit bus slave address (R7, R9). -/
abbrev SlaveAddr := BitVec 7

end Sys2Proof
end

