-- ==== Sys2Proof/Config.lean ====
section
/-! DEFINITION. The free values: what spec/ leaves to the chip or leaves unspecified. They have no body, so no proof can see a value.
The parameters SLAVE_ADDR, CAP and the presence bits (R7, R8, R10) are not here: the host may bind them, so State holds them. -/

namespace Sys2Proof

/-- An unspecified byte, applied to State's counter `draws`: the registers `OP`, `PTR`, `CUR` and `N` after the reset input (R271, U11)
and the chip's internal pointer wherever the spec gives it no value (R33, U2). Log 13 and log 15. -/
opaque Config.freeByte : Nat → Byte

/-- Whether data byte `i` of a failed or abandoned frame landed on the chip, applied to State's counter and to `i`:
"any subset of the failed frame's data bytes may have landed" (D37, R133, U4). Log 11. -/
opaque Config.frameByteLanded : Nat → Nat → Bool

end Sys2Proof
end

