-- ==== Sys2Proof/Syntax.lean ====
section
/-! DEFINITION. The requests of the engine, one constructor per row of spec/opcode_table.json (spec/30_encoding.md R81, R83). -/

namespace Sys2Proof

/-- A DateTime value: seven plain binary 8-bit fields in chip-register order (R150). -/
structure DateTime where
  second  : Byte
  minute  : Byte
  hour    : Byte
  weekday : Byte
  day     : Byte
  month   : Byte
  year    : Byte
deriving DecidableEq, Repr

/-- A request. Operands are the bytes of R83; `halt` is bit 0 of the flags byte (R86), whose other bits a request never carries;
the count byte of the FDATA format is the length of `data` (R84, R85). -/
inductive Instr where
  | init
  | deinit
  | setdt (dt : DateTime) (halt : Bool)
  | getdt
  | wrram (offset : Byte) (data : List Byte)
  | rdram (offset size : Byte)
  | setow (mode : Byte)
  | bcdenc (value : Byte)
  | bcddec (byte : Byte)
  | secenc (value : Byte) (halt : Bool)
  | secdec (byte : Byte)
  | ctrlenc (mode : Byte)
  | adec (addr : Byte)
  | pwrite (start : Byte) (data : List Byte)
  | pread (start count : Byte)
deriving DecidableEq, Repr

end Sys2Proof
end

