-- ==== Sys2Proof/WellFormed.lean ====
section
/-! DEFINITION. Which terms of Instr are requests: the one bound that the type does not carry (spec/30_encoding.md R85). -/

namespace Sys2Proof

/-- The count byte of the FDATA format is 8 bits, so a request carries at most 255 data bytes (R85). -/
def dataFits (data : List Byte) : Bool := decide (data.length ≤ 255)

/-- A well-formed request. Operand ranges (fields, window, mode) are not part of it: they give InvalidParameter (R95). -/
def Instr.wf : Instr → Bool
  | .init          => true
  | .deinit        => true
  | .setdt _ _     => true
  | .getdt         => true
  | .wrram _ data  => dataFits data
  | .rdram _ _     => true
  | .setow _       => true
  | .bcdenc _      => true
  | .bcddec _      => true
  | .secenc _ _    => true
  | .secdec _      => true
  | .ctrlenc _     => true
  | .adec _        => true
  | .pwrite _ data => dataFits data
  | .pread _ _     => true

end Sys2Proof
end

