-- ==== Sys2Proof/Decode.lean ====
section
/-! DEFINITION. Decoding a request byte string, total, every rejection by name, and the encoder written from the same tables
(spec/30_encoding.md R80 to R87, R95). -/

namespace Sys2Proof

/-- The operations that an opcode byte can select (R81). -/
inductive Opcode where
  | init | deinit | setdt | getdt | wrram | rdram | setow
  | bcdenc | bcddec | secenc | secdec | ctrlenc | adec | pwrite | pread
deriving DecidableEq, Repr

/-- Why a byte string is not accepted (R95): an empty string "is no request"; a reserved opcode (R82); a wrong length or a
reserved flag bit (R84, R86). -/
inductive DecodeReject where
  | noRequest
  | illegalOp
  | malformed
deriving DecidableEq, Repr

/-- The opcode column of R81. -/
def Opcode.byte : Opcode → Byte
  | .init    => 0x01
  | .deinit  => 0x02
  | .setdt   => 0x03
  | .getdt   => 0x04
  | .wrram   => 0x05
  | .rdram   => 0x06
  | .setow   => 0x07
  | .bcdenc  => 0x10
  | .bcddec  => 0x11
  | .secenc  => 0x12
  | .secdec  => 0x13
  | .ctrlenc => 0x14
  | .adec    => 0x15
  | .pwrite  => 0x16
  | .pread   => 0x17

/-- Every operation, in the order of R81. -/
def Opcode.all : List Opcode :=
  [.init, .deinit, .setdt, .getdt, .wrram, .rdram, .setow, .bcdenc, .bcddec, .secenc, .secdec, .ctrlenc, .adec, .pwrite, .pread]

/-- The operation a byte 0 selects, by R81's table; none for the reserved opcodes of R82, which are the bytes no row has. -/
def Opcode.ofByte (b : Byte) : Option Opcode := Opcode.all.find? (fun o => o.byte == b)

/-- The operation of a request. -/
def Instr.opcode : Instr → Opcode
  | .init        => .init
  | .deinit      => .deinit
  | .setdt _ _   => .setdt
  | .getdt       => .getdt
  | .wrram _ _   => .wrram
  | .rdram _ _   => .rdram
  | .setow _     => .setow
  | .bcdenc _    => .bcdenc
  | .bcddec _    => .bcddec
  | .secenc _ _  => .secenc
  | .secdec _    => .secdec
  | .ctrlenc _   => .ctrlenc
  | .adec _      => .adec
  | .pwrite _ _  => .pwrite
  | .pread _ _   => .pread

/-- The `halt` bit of a flags byte; none when a reserved bit 7:1 is set (R86). -/
def decodeFlags (fl : Byte) : Option Bool :=
  if fl &&& 0xFE = 0 then some (fl.getLsbD 0) else none

/-- The flags byte of `halt`: bit 0, bits 7:1 zero (R86). -/
def encodeFlags (halt : Bool) : Byte := if halt then 0x01 else 0x00

/-- Format F0: no operand byte (R83); any other length is malformed (R84). -/
def formatF0 (i : Instr) (args : List Byte) : Except DecodeReject Instr :=
  match args with
  | [] => .ok i
  | _  => .error .malformed

/-- Format F1: one operand byte (R83, R84). -/
def formatF1 (i : Byte → Instr) (args : List Byte) : Except DecodeReject Instr :=
  match args with
  | [a] => .ok (i a)
  | _   => .error .malformed

/-- Format F2: two operand bytes (R83, R84). -/
def formatF2 (i : Byte → Byte → Instr) (args : List Byte) : Except DecodeReject Instr :=
  match args with
  | [a, b] => .ok (i a b)
  | _      => .error .malformed

/-- Format F2 with a flags byte second: a reserved bit set is malformed (R86). -/
def formatF2Flags (i : Byte → Bool → Instr) (args : List Byte) : Except DecodeReject Instr :=
  match args with
  | [a, fl] =>
    match decodeFlags fl with
    | some halt => .ok (i a halt)
    | none      => .error .malformed
  | _ => .error .malformed

/-- Format FDT: seven fields and a flags byte (R83, R84, R86). -/
def formatFDT (i : DateTime → Bool → Instr) (args : List Byte) : Except DecodeReject Instr :=
  match args with
  | [s, mi, h, wd, d, mo, y, fl] =>
    match decodeFlags fl with
    | some halt => .ok (i ⟨s, mi, h, wd, d, mo, y⟩ halt)
    | none      => .error .malformed
  | _ => .error .malformed

/-- Format FDATA: one operand byte, a count byte, and exactly that many data bytes (R83, R84). -/
def formatFDATA (i : Byte → List Byte → Instr) (args : List Byte) : Except DecodeReject Instr :=
  match args with
  | a :: count :: data => if data.length = count.toNat then .ok (i a data) else .error .malformed
  | _ => .error .malformed

/-- The operands after an accepted opcode byte, by the format column of R81. -/
def decodeOperands (op : Opcode) (args : List Byte) : Except DecodeReject Instr :=
  match op with
  | .init    => formatF0 .init args
  | .deinit  => formatF0 .deinit args
  | .setdt   => formatFDT .setdt args
  | .getdt   => formatF0 .getdt args
  | .wrram   => formatFDATA .wrram args
  | .rdram   => formatF2 .rdram args
  | .setow   => formatF1 .setow args
  | .bcdenc  => formatF1 .bcdenc args
  | .bcddec  => formatF1 .bcddec args
  | .secenc  => formatF2Flags .secenc args
  | .secdec  => formatF1 .secdec args
  | .ctrlenc => formatF1 .ctrlenc args
  | .adec    => formatF1 .adec args
  | .pwrite  => formatFDATA .pwrite args
  | .pread   => formatF2 .pread args

/-- Request decoding in the order of R95: empty, reserved opcode, length, reserved flag bits, accepted. -/
def decode : List Byte → Except DecodeReject Instr
  | [] => .error .noRequest
  | b :: args =>
    match Opcode.ofByte b with
    | none    => .error .illegalOp
    | some op => decodeOperands op args

/-- How many bytes a request beginning with `b0`, and with `b2` as its byte 2, has (R84); none for a reserved opcode. -/
def requestLength (b0 b2 : Byte) : Option Nat :=
  match Opcode.ofByte b0 with
  | none => none
  | some op =>
    match op with
    | .init | .deinit | .getdt => some 1
    | .setow | .bcdenc | .bcddec | .secdec | .ctrlenc | .adec => some 2
    | .rdram | .secenc | .pread => some 3
    | .setdt => some 9
    | .wrram | .pwrite => some (3 + b2.toNat)

/-- The operand bytes of a request, in the order of its format (R83). -/
def encodeOperands : Instr → List Byte
  | .init | .deinit | .getdt => []
  | .setdt dt halt =>
    [dt.second, dt.minute, dt.hour, dt.weekday, dt.day, dt.month, dt.year, encodeFlags halt]
  | .wrram offset data => offset :: BitVec.ofNat 8 data.length :: data
  | .rdram offset size => [offset, size]
  | .setow mode => [mode]
  | .bcdenc v => [v]
  | .bcddec b => [b]
  | .secenc v halt => [v, encodeFlags halt]
  | .secdec b => [b]
  | .ctrlenc mode => [mode]
  | .adec a => [a]
  | .pwrite start data => start :: BitVec.ofNat 8 data.length :: data
  | .pread start count => [start, count]

/-- The byte string of a request: opcode, then operands (R80, R83). -/
def encode (i : Instr) : List Byte := i.opcode.byte :: encodeOperands i

/-- Byte `k` of a table word: bits `8k+7 .. 8k`, the first byte the least significant (spec/opcode_table.json's numbering). -/
def tableByte (w k : Nat) : Byte := BitVec.ofNat 8 (w / 256 ^ k)

/-- The byte string a table word stands for: its `nbits` bits in whole bytes, followed by operand bytes of zeros up to the length R84
gives the request. Log 21. -/
def tableBytes (nbits w : Nat) : List Byte :=
  let w := w % 2 ^ nbits
  let given := nbits / 8
  let len := (requestLength (tableByte w 0) (tableByte w 2)).getD given
  (List.range (max given len)).map (tableByte w)

/-- The instruction the decoder reads from a row's word of the opcode table. -/
def decodeTableWord (nbits w : Nat) : Option Instr :=
  match decode (tableBytes nbits w) with
  | .ok i    => some i
  | .error _ => none

end Sys2Proof
end

