-- ==== Sys2Proof/Machine/State.lean ====
section
/-! DEFINITION. The state of the engine: the inventory of spec/10_state.md R21, the operation in flight, its ports, and the chip's
registers as the engine's frames have left them. Plain data throughout; State.reset is spec/70_reset_and_hazards.md R271. -/

namespace Sys2Proof.Machine

/-- `LIFE` (R26). -/
inductive Life where
  | uninit
  | ready
deriving DecidableEq, Repr

/-- `PHASE` (R25). -/
inductive Phase where
  | idle
  | busy
deriving DecidableEq, Repr

/-- The result names of R17 and R88. Their numeric codes are in Flags.lean. -/
inductive ResultCode where
  | success
  | invalidParameter
  | transportFailure
  | initError
deriving DecidableEq, Repr

/-- The content of `RESP` once an operation has ended (R28). -/
structure Response where
  code    : ResultCode
  payload : List Byte
deriving DecidableEq, Repr

/-- The configuration inputs that the host binds (R7, R8, R10, R27). -/
structure Binding where
  slaveAddr   : SlaveAddr
  cap         : Nat
  sendPresent : Bool
  recvPresent : Bool
  initHook    : Bool
  deinitHook  : Bool
deriving DecidableEq, Repr

/-- One call on the transport port, in the engine's words (R92). -/
inductive Call where
  | send (addr : SlaveAddr) (frame : List Byte)
  | receive (addr : SlaveAddr) (count : Byte)
  | initHook
  | deinitHook
deriving DecidableEq, Repr

/-- The host's answer to one call (R92): FAIL, or OK with the bytes of a Receive (no byte for a Send or a hook). -/
inductive Answer where
  | fail
  | ok (bytes : List Byte)
deriving DecidableEq, Repr

/-- One move of the host (R80, R92, R223, R270). -/
inductive Input where
  | request (bytes : List Byte)
  | answer (a : Answer)
  | bind (b : Binding)
  | reset
deriving DecidableEq, Repr

/-- The outstanding call of the operation in flight, with the operands that its answer still needs (R25, R131, R136). -/
inductive Pending where
  | write (data : List Byte)         -- a planner Write's Send; the caller's data
  | position (start count : Byte)    -- a planner Read's positioning Send
  | receive (count : Byte)           -- a planner Read's Receive
  | initHook
  | deinitHook
deriving DecidableEq, Repr

/-- Chip registers, address and byte, in canonical form: addresses strictly rising. An unlisted address has no known value, so no
entry can repeat what an unlisted address reads as. -/
abbrev Memory := List Host.Cell

/-- Addresses strictly rise, and each exceeds `low` where a bound is given. -/
def Memory.wfFrom : Option Nat → Memory → Bool
  | _, [] => true
  | none, (a, _) :: m => Memory.wfFrom (some a) m
  | some low, (a, _) :: m => decide (low < a) && Memory.wfFrom (some a) m

/-- The canonical form of Memory. -/
def Memory.wf (m : Memory) : Bool := Memory.wfFrom none m

/-- The whole state. Field names are the spec's registers in lower case (R21). -/
structure State where
  binding : Binding
  life    : Life
  phase   : Phase
  op      : Byte
  ptr     : Byte
  cur     : Byte
  n       : Byte
  resp    : Option Response        -- none: the spec's own "empty (no response)"
  pending : Option Pending         -- none: no call outstanding
  port    : List (List Byte)       -- requests held while BUSY, oldest first (R275)
  inputs  : List Input             -- host moves not yet taken, oldest first
  calls   : List Call              -- calls issued on the transport port, oldest first (R61)
  chip    : Memory                 -- chip registers as this engine's frames left them (R31 to R38)
  chipPtr : Byte                   -- the chip's internal pointer (R33)
  draws   : Nat                    -- free values drawn so far (the model's own)
deriving DecidableEq, Repr

/-- Host moves for which the spec gives the engine no move. Each stops the model where a real system would be outside its contract: safe. -/
inductive Fault where
  /-- Raised by `settle`: an answer OK whose byte count is not the one the call asks for (R92, U16). Safe. -/
  | answerLength
  /-- Raised by `step`: an answer while no call is outstanding (R25, R276). Safe. -/
  | answerWithoutCall
  /-- Raised by `step`: a configuration change while READY or BUSY, which "has no move in the model" (R27, R223). Safe. -/
  | bindingFixed
deriving DecidableEq, Repr

/-- Requests to which the spec gives no meaning (R242). -/
inductive Refusal where
  /-- Raised by `exec` for an instruction without a meaning; no arm of this model does so. Safe. -/
  | notModelled (mnemonic : String)
  /-- Raised by `runRequest`: a reserved opcode (R82). Safe. -/
  | illegalOp
  /-- Raised by `runRequest`: a wrong length or a reserved flag bit (R84, R86). Safe. -/
  | malformed
  /-- Raised by the seven bus requests while `LIFE = UNINIT` (R224). Safe. -/
  | notReady
  /-- Raised by BCDENC and SECENC for a value of 100 to 255, "undefined by design" (R111, R113, U1). Safe. -/
  | bcdDomain
deriving DecidableEq, Repr

/-- What a step or a meaning answers. -/
abbrev StepOutcome := Host.Outcome State Fault Refusal

/-- Nothing bound: the state of the configuration inputs before the host's step 1 of R273. Log 16. -/
def Binding.unbound : Binding where
  slaveAddr   := 0
  cap         := 0
  sendPresent := false
  recvPresent := false
  initHook    := false
  deinitHook  := false

/-- The machine right after reset (R271). `binding`, `op`, `ptr`, `cur`, `n`, `chipPtr` have no value in the spec: logs 15, 16, 17. -/
def State.reset : State where
  binding := Binding.unbound
  life    := .uninit
  phase   := .idle
  op      := 0
  ptr     := 0
  cur     := 0
  n       := 0
  resp    := none
  pending := none
  port    := []
  inputs  := []
  calls   := []
  chip    := []
  chipPtr := 0
  draws   := 0

end Sys2Proof.Machine
end

