-- ==== Sys2Proof/Machine/Flags.lean ====
section
/-! DEFINITION. Status. The engine has no condition codes (spec/10_state.md R30): its only status is the result code of a response
(spec/30_encoding.md R88), and the one flag bit it handles is the oscillator halt bit of the seconds byte (R32). -/

namespace Sys2Proof.Machine

/-- Numeric result codes (R88). -/
def ResultCode.byte : ResultCode → Byte
  | .success          => 0x00
  | .invalidParameter => 0x01
  | .transportFailure => 0x02
  | .initError        => 0x03

/-- A response as a byte string: result code, then payload (R88). -/
def Response.bytes (r : Response) : List Byte := r.code.byte :: r.payload

/-- The byte `b` with the halt bit, bit 7, forced to `halt`: `{halt, b[6:0]}` (R32, R113). -/
def withHalt (b : Byte) (halt : Bool) : Byte :=
  (if halt then 0x80 else 0x00) ||| (b &&& 0x7F)

/-- The byte `b` with the halt bit masked off: `b & 0x7F` (R114). -/
def maskHalt (b : Byte) : Byte := b &&& 0x7F

end Sys2Proof.Machine
end

