-- ==== Sys2Proof/Machine/Operands.lean ====
section
/-! DEFINITION. Operand functions, all without state: the BCD codec (spec/40_codec.md), the operand checks (R151, R170), the control
encoder (spec/44_output_wave.md) and the register-address decoder (spec/45_address_decoder.md). -/

namespace Sys2Proof.Machine

/-- The byte of two nibbles, `{hi[3:0], lo[3:0]}` (R11). -/
def nibbles (hi lo : Nat) : Byte := BitVec.ofNat 8 (hi % 16 * 16 + lo % 16)

/-- The domain of the BCD encoder: 0 to 99 (R111). -/
abbrev bcdDomain (v : Byte) : Prop := v.toNat ≤ 99

/-- `bcd_enc` (R110, R111): tens digit in the high nibble, units digit in the low one. Meaningful for `bcdDomain v`. -/
def bcdEnc (v : Byte) : Byte := nibbles (v.toNat / 10) (v.toNat % 10)

/-- `bcd_dec` (R112): `b[7:4] * 10 + b[3:0]`, at most 165, tolerant of any byte. -/
def bcdDec (b : Byte) : Byte := BitVec.ofNat 8 (b.toNat / 16 * 10 + b.toNat % 16)

/-- `sec_enc` (R113): `{halt, bcd_enc(v)[6:0]}`. Meaningful for `bcdDomain v`. -/
def secEnc (v : Byte) (halt : Bool) : Byte := withHalt (bcdEnc v) halt

/-- `sec_dec` (R114): bit 7 masked off before the BCD conversion. -/
def secDec (b : Byte) : Byte := bcdDec (maskHalt b)

/-- `valid_dt` (R151), per field and no more (R152). -/
abbrev validDt (dt : DateTime) : Prop :=
  dt.second.toNat ≤ 59 ∧ dt.minute.toNat ≤ 59 ∧ dt.hour.toNat ≤ 23
    ∧ (1 ≤ dt.weekday.toNat ∧ dt.weekday.toNat ≤ 7)
    ∧ (1 ≤ dt.day.toNat ∧ dt.day.toNat ≤ 31)
    ∧ (1 ≤ dt.month.toNat ∧ dt.month.toNat ≤ 12)
    ∧ dt.year.toNat ≤ 99

/-- The seven register bytes of SETDT, registers 0x00 to 0x06 in order (R153). -/
def timeBytes (dt : DateTime) (halt : Bool) : List Byte :=
  [secEnc dt.second halt, bcdEnc dt.minute, bcdEnc dt.hour, bcdEnc dt.weekday, bcdEnc dt.day, bcdEnc dt.month, bcdEnc dt.year]

/-- The payload of GETDT from the received bytes: the first by `sec_dec`, the others by `bcd_dec` (R155). -/
def decodeTime : List Byte → List Byte
  | []      => []
  | b :: bs => secDec b :: bs.map bcdDec

/-- The window check `ram_ok` on unbounded naturals (R170). -/
abbrev ramOk (offset : Byte) (size : Nat) : Prop := 1 ≤ size ∧ offset.toNat + size ≤ 56

/-- The chip register of a RAM offset: the bias of +8 (R53). -/
def ramRegister (offset : Byte) : Byte := offset + 8

/-- The six named output modes (R190). -/
inductive OutputMode where
  | off | high | sqw1Hz | sqw4096Hz | sqw8192Hz | sqw32768Hz
deriving DecidableEq, Repr

/-- The mode of an operand value; none for the unrecognized values 6 to 255 (R87). -/
def OutputMode.ofByte (b : Byte) : Option OutputMode :=
  match b.toNat with
  | 0 => some .off
  | 1 => some .high
  | 2 => some .sqw1Hz
  | 3 => some .sqw4096Hz
  | 4 => some .sqw8192Hz
  | 5 => some .sqw32768Hz
  | _ => none

/-- The operand value of a mode (R87). -/
def OutputMode.byte : OutputMode → Byte
  | .off        => 0
  | .high       => 1
  | .sqw1Hz     => 2
  | .sqw4096Hz  => 3
  | .sqw8192Hz  => 4
  | .sqw32768Hz => 5

/-- The control byte from its described fields: OUT bit 7, SQWE bit 4, RS bits 1:0, the other bits 0 (R37, R191). -/
def controlByte (out sqwe : Bool) (rs : BitVec 2) : Byte :=
  (if out then 0x80 else 0x00) ||| (if sqwe then 0x10 else 0x00) ||| rs.zeroExtend 8

/-- The control byte of a mode, row by row as R191 has it. -/
def OutputMode.control : OutputMode → Byte
  | .off        => controlByte false false 0b00
  | .high       => controlByte true  false 0b00
  | .sqw1Hz     => controlByte false true  0b00
  | .sqw4096Hz  => controlByte false true  0b01
  | .sqw8192Hz  => controlByte false true  0b10
  | .sqw32768Hz => controlByte false true  0b11

/-- `ctrl_enc` (R191): none is the spec's Invalid. -/
def ctrlEnc (mode : Byte) : Option Byte := (OutputMode.ofByte mode).map OutputMode.control

/-- The regions of the chip's register space (R52). -/
inductive RegClass where
  | time | control | ram | unmapped
deriving DecidableEq, Repr

/-- The class codes of ADEC's payload (R90). -/
def RegClass.byte : RegClass → Byte
  | .time     => 0x00
  | .control  => 0x01
  | .ram      => 0x02
  | .unmapped => 0x03

/-- `adec` (R210). -/
def adec (a : Byte) : RegClass × Byte :=
  if a.toNat ≤ 0x06 then (.time, a)
  else if a.toNat = 0x07 then (.control, 0)
  else if a.toNat ≤ 0x3F then (.ram, a - 8)
  else (.unmapped, 0)

end Sys2Proof.Machine
end

