-- ==== Sys2Proof/Machine/Ops.lean ====
section
/-! DEFINITION. The named operations: chip registers, acceptance and ending of an operation (spec/60_exceptions.md R240), the transfer
planner (spec/41_transfer_planner.md R131, R136), the handling of an answer, and the reset input (spec/70_reset_and_hazards.md R270). -/

namespace Sys2Proof.Machine

/-! ### Chip registers -/

/-- How many chip registers are mapped: addresses 0x00 to 0x3F (R52). -/
def mappedSize : Nat := 64

/-- The known value of one register; none where the model knows none. -/
def Memory.read : Memory → Nat → Option Byte
  | [], _ => none
  | (a', b) :: m, a => if a = a' then some b else Memory.read m a

/-- Put one byte, keeping the addresses strictly rising. -/
def Memory.write : Memory → Nat → Byte → Memory
  | [], a, b => [(a, b)]
  | (a', b') :: m, a, b =>
    if a < a' then (a, b) :: (a', b') :: m
    else if a = a' then (a, b) :: m
    else (a', b') :: Memory.write m a b

/-- Put a run of bytes, the first at the lowest address (R54). -/
def Memory.writeBytes : Memory → Nat → List Byte → Memory
  | m, _, [] => m
  | m, a, b :: bs => Memory.writeBytes (m.write a b) (a + 1) bs

/-- Put those bytes of a run for which `landed` holds, counting from `k` (R133, D37). -/
def Memory.writeSome (landed : Nat → Bool) : Nat → Memory → Nat → List Byte → Memory
  | _, m, _, [] => m
  | k, m, a, b :: bs => Memory.writeSome landed (k + 1) (if landed k then m.write a b else m) (a + 1) bs

/-- Whether a run of `len` registers from `a` lies in the mapped space (R52). -/
abbrev inMap (a : Byte) (len : Nat) : Prop := a.toNat + len ≤ mappedSize

/-- The chip after a frame answered OK: its bytes are written (U4); past the map nothing of the chip is known (U13, log 12). -/
def Memory.frameOk (m : Memory) (a : Byte) (bytes : List Byte) : Memory :=
  if inMap a bytes.length then m.writeBytes a.toNat bytes else []

/-- The chip after a failed or abandoned frame: any subset of its bytes landed (R58, R133, log 11). -/
def Memory.frameFailed (draw : Nat) (m : Memory) (a : Byte) (bytes : List Byte) : Memory :=
  if inMap a bytes.length then m.writeSome (Config.frameByteLanded draw) 0 a.toNat bytes else []

namespace State

/-! ### Accepting and ending an operation -/

/-- Acceptance of a request: `PHASE <- BUSY`, `OP <-` its opcode (R21, R25). -/
def accept (op : Opcode) (s : State) : State :=
  { s with phase := .busy, op := op.byte, pending := none }

/-- Write the response and go `IDLE` (R240). -/
def finish (code : ResultCode) (payload : List Byte) (s : State) : State :=
  { s with phase := .idle, pending := none, resp := some ⟨code, payload⟩ }

/-- `return Success(payload)` (R240). -/
def succeed (payload : List Byte) (s : State) : State := s.finish .success payload

/-- `raise code`, the one way an operation reports an error: no payload, nothing else saved (R240); there is no return from it (R247). -/
def raise (code : ResultCode) (s : State) : State := s.finish code []

/-! ### The transport port -/

/-- Issue one call and wait for its answer (R61, R92). -/
def issue (c : Call) (p : Pending) (s : State) : State :=
  { s with calls := s.calls ++ [c], pending := some p }

/-- The length of the next chunk, `min(CAP - 1, N - CUR)` (R131). -/
def chunkLen (s : State) : Nat := min (s.binding.cap - 1) (s.n.toNat - s.cur.toNat)

/-- The next chunk, `data[CUR .. CUR + len)` (R131). -/
def chunk (data : List Byte) (s : State) : List Byte := (data.drop s.cur.toNat).take s.chunkLen

/-- The next frame, `[PTR] ++ chunk` (R91). -/
def frame (data : List Byte) (s : State) : List Byte := s.ptr :: s.chunk data

/-- The head of the planner's loop: the next Send while `CUR < N`, Success after the last (R131). -/
def sendNext (data : List Byte) (s : State) : State :=
  if s.cur.toNat < s.n.toNat then s.issue (.send s.binding.slaveAddr (s.frame data)) (.write data)
  else s.succeed []

/-- `PTR <- (PTR + len) mod 256`, `CUR <- CUR + len` (R131). -/
def advance (s : State) : State :=
  { s with ptr := s.ptr + BitVec.ofNat 8 s.chunkLen, cur := s.cur + BitVec.ofNat 8 s.chunkLen }

/-- `plan_write(start, data)` up to its first call, or to its end when there is no data (R131, R135). -/
def planWrite (start : Byte) (data : List Byte) (s : State) : State :=
  sendNext data { s with ptr := start, cur := 0, n := BitVec.ofNat 8 data.length }

/-- `plan_read(start, count)` up to its positioning Send (R93, R136). -/
def planRead (start count : Byte) (s : State) : State :=
  s.issue (.send s.binding.slaveAddr [start]) (.position start count)

/-! ### What a call does on the chip's side -/

/-- The chip's pointer takes an unspecified value (R33, U2, log 13). -/
def losePointer (s : State) : State :=
  { s with chipPtr := Config.freeByte s.draws, draws := s.draws + 1 }

/-- A frame of a Write answered OK, `PTR` still at its first register. -/
def chipFrameOk (data : List Byte) (s : State) : State :=
  losePointer { s with chip := s.chip.frameOk s.ptr (s.chunk data) }

/-- A frame of a Write that failed or was abandoned. -/
def chipFrameFailed (data : List Byte) (s : State) : State :=
  losePointer { s with chip := Memory.frameFailed s.draws s.chip s.ptr (s.chunk data) }

/-- A positioning Send answered OK: the chip's pointer is at a mapped register `a` (R33). For an address 0x40 to 0xFF the spec leaves the chip's
behaviour open (N6, U13), and the pointer is a free value (log 13). -/
def setPointer (a : Byte) (s : State) : State :=
  { s with
    chipPtr := if inMap a 1 then a else Config.freeByte s.draws
    draws   := if inMap a 1 then s.draws else s.draws + 1 }

/-! ### The handling of an answer -/

/-- The payload of a Read, by the operation in flight: GETDT decodes (R155), RDRAM and PREAD move bytes unchanged (R138, R172). -/
def readPayload (s : State) (bytes : List Byte) : List Byte :=
  if s.op = Opcode.getdt.byte then decodeTime bytes else bytes

/-- The engine's move on the answer to its outstanding call `p`. -/
def answered (p : Pending) (a : Answer) (s : State) : State :=
  match p, a with
  | .write data,       .ok _     => sendNext data (advance (s.chipFrameOk data))
  | .write data,       .fail     => (s.chipFrameFailed data).raise .transportFailure
  | .position start count, .ok _ => (s.setPointer start).issue (.receive s.binding.slaveAddr count) (.receive count)
  | .position _ _,     .fail     => s.losePointer.raise .transportFailure
  | .receive _,        .ok bytes => s.losePointer.succeed (s.readPayload bytes)
  | .receive _,        .fail     => s.losePointer.raise .transportFailure
  | .initHook,         .ok _     => ({ s with life := .ready }).succeed []
  | .initHook,         .fail     => s.raise .initError
  | .deinitHook,       .ok _     => ({ s with life := .uninit }).succeed []
  | .deinitHook,       .fail     => ({ s with life := .uninit }).raise .transportFailure

end State

/-- How many bytes the answer OK to a call carries: `count` for a Receive, none for a Send or a hook (R92). -/
def Pending.expects : Pending → Nat
  | .receive count => count.toNat
  | _ => 0

/-- Whether an answer is within the port's contract for a call that expects `k` bytes (R92). -/
def Answer.fits (a : Answer) (k : Nat) : Bool :=
  match a with
  | .fail     => true
  | .ok bytes => bytes.length == k

/-- Run the operation in flight through the answers that stand first in `ins`, until it ends or the next host move is no answer; the rest
of `ins` is left for later steps. An answer of a wrong length has no move (U16, log 4). An answer carries no mark of the call it is for: the
spec does not say what becomes of a late answer to a call that reset abandoned, and the model takes it for the call now outstanding (log 24). -/
def settle : List Input → State → StepOutcome
  | [], s => .next { s with inputs := [] }
  | .answer a :: rest, s =>
    match s.pending with
    | none   => .next { s with inputs := .answer a :: rest }
    | some p => if a.fits p.expects then settle rest (s.answered p a) else .fault .answerLength
  | .request b :: rest, s => .next { s with inputs := .request b :: rest }
  | .bind b :: rest,    s => .next { s with inputs := .bind b :: rest }
  | .reset :: rest,     s => .next { s with inputs := .reset :: rest }

/-- Run the operation in flight as far as the host's answers go. -/
def State.run (s : State) : StepOutcome := settle s.inputs s

namespace State

/-! ### The reset input and the request port -/

/-- What abandoning the outstanding call leaves on the chip's side: unknown, as after a failure (R58, R270). -/
def abandon (s : State) : State :=
  match s.pending with
  | some (.write data)   => s.chipFrameFailed data
  | some (.position _ _) => s.losePointer
  | some (.receive _)    => s.losePointer
  | some .initHook       => s
  | some .deinitHook     => s
  | none                 => s

/-- The four sequencer registers take unspecified values (R271, U11, log 15). -/
def loseSequencer (s : State) : State :=
  { s with
    op    := Config.freeByte s.draws
    ptr   := Config.freeByte (s.draws + 1)
    cur   := Config.freeByte (s.draws + 2)
    n     := Config.freeByte (s.draws + 3)
    draws := s.draws + 4 }

/-- The reset input (R270, R271): the operation in flight is abandoned, no call is issued, the configuration and the chip stay. -/
def engineReset (s : State) : State :=
  { s.abandon.loseSequencer with life := .uninit, phase := .idle, resp := none, pending := none }

/-- The port holds a request presented while BUSY (R275). -/
def hold (bytes : List Byte) (s : State) : State := { s with port := s.port ++ [bytes] }

end State

end Sys2Proof.Machine
end

