-- ==== Sys2Proof/Machine/AddrDecoder.lean ====
section
/-! DEFINITION. The register-address decoder request ADEC (spec/45_address_decoder.md R211). -/

namespace Sys2Proof.Machine

/-- ADEC (R211): always Success with `[class, index]` (R90). -/
def execAdec (a : Byte) (s : State) : StepOutcome :=
  .next ((s.accept .adec).succeed [(adec a).1.byte, (adec a).2])

end Sys2Proof.Machine
end

