-- ==== Sys2Proof/Machine/Clock.lean ====
section
/-! DEFINITION. The clock requests SETDT and GETDT (spec/42_clock_ops.md R153, R155). -/

namespace Sys2Proof.Machine

/-- SETDT (R153): the check, then one seven-byte Write from register 0x00; `halt` is bit 7 of the seconds byte (R154). -/
def execSetdt (dt : DateTime) (halt : Bool) (s : State) : StepOutcome :=
  if s.life = .ready then
    if validDt dt then ((s.accept .setdt).planWrite 0x00 (timeBytes dt halt)).run
    else .next ((s.accept .setdt).raise .invalidParameter)
  else .refused .notReady

/-- GETDT (R155): one Read of the seven registers from 0x00; its bytes are decoded by `State.readPayload`. -/
def execGetdt (s : State) : StepOutcome :=
  if s.life = .ready then ((s.accept .getdt).planRead 0x00 7).run else .refused .notReady

end Sys2Proof.Machine
end

