-- ==== Sys2Proof/Machine/Codec.lean ====
section
/-! DEFINITION. The codec requests BCDENC, BCDDEC, SECENC, SECDEC (spec/40_codec.md): no call, allowed in either lifecycle state. -/

namespace Sys2Proof.Machine

/-- BCDENC (R111): refused outside 0 to 99. -/
def execBcdenc (v : Byte) (s : State) : StepOutcome :=
  if bcdDomain v then .next ((s.accept .bcdenc).succeed [bcdEnc v]) else .refused .bcdDomain

/-- BCDDEC (R112): always Success. -/
def execBcddec (b : Byte) (s : State) : StepOutcome :=
  .next ((s.accept .bcddec).succeed [bcdDec b])

/-- SECENC (R113): refused outside 0 to 99. -/
def execSecenc (v : Byte) (halt : Bool) (s : State) : StepOutcome :=
  if bcdDomain v then .next ((s.accept .secenc).succeed [secEnc v halt]) else .refused .bcdDomain

/-- SECDEC (R114): always Success. -/
def execSecdec (b : Byte) (s : State) : StepOutcome :=
  .next ((s.accept .secdec).succeed [secDec b])

end Sys2Proof.Machine
end

