-- ==== Sys2Proof/Machine/Lifecycle.lean ====
section
/-! DEFINITION. The lifecycle requests INIT and DEINIT (spec/46_lifecycle.md R220 to R222). -/

namespace Sys2Proof.Machine

/-- INIT (R220): a no-op Success in READY (R221); otherwise presence and capacity checks, then the init hook where one is bound. -/
def execInit (s : State) : StepOutcome :=
  let a := s.accept .init
  if s.life = .ready then .next (a.succeed [])
  else if !s.binding.sendPresent || !s.binding.recvPresent then .next (a.raise .initError)
  else if s.binding.cap < 2 then .next (a.raise .initError)
  else if s.binding.initHook then (a.issue .initHook .initHook).run
  else .next (({ a with life := .ready }).succeed [])

/-- DEINIT (R222): a no-op Success in UNINIT; otherwise the deinit hook where one is bound, and UNINIT whatever it answers. -/
def execDeinit (s : State) : StepOutcome :=
  let a := s.accept .deinit
  if s.life = .uninit then .next (a.succeed [])
  else if s.binding.deinitHook then (a.issue .deinitHook .deinitHook).run
  else .next (({ a with life := .uninit }).succeed [])

end Sys2Proof.Machine
end

