-- ==== Sys2Proof/Machine/Planner.lean ====
section
/-! DEFINITION. The raw planner requests PWRITE and PREAD (spec/41_transfer_planner.md R134, R138): no operand check. -/

namespace Sys2Proof.Machine

/-- PWRITE (R134). -/
def execPwrite (start : Byte) (data : List Byte) (s : State) : StepOutcome :=
  if s.life = .ready then ((s.accept .pwrite).planWrite start data).run else .refused .notReady

/-- PREAD (R138). -/
def execPread (start count : Byte) (s : State) : StepOutcome :=
  if s.life = .ready then ((s.accept .pread).planRead start count).run else .refused .notReady

end Sys2Proof.Machine
end

