-- ==== Sys2Proof/Machine/Ram.lean ====
section
/-! DEFINITION. The RAM window requests WRRAM and RDRAM (spec/43_ram_ops.md R171, R172). -/

namespace Sys2Proof.Machine

/-- WRRAM (R171): `size` is the number of data bytes (R84). -/
def execWrram (offset : Byte) (data : List Byte) (s : State) : StepOutcome :=
  if s.life = .ready then
    if ramOk offset data.length then ((s.accept .wrram).planWrite (ramRegister offset) data).run
    else .next ((s.accept .wrram).raise .invalidParameter)
  else .refused .notReady

/-- RDRAM (R172). -/
def execRdram (offset size : Byte) (s : State) : StepOutcome :=
  if s.life = .ready then
    if ramOk offset size.toNat then ((s.accept .rdram).planRead (ramRegister offset) size).run
    else .next ((s.accept .rdram).raise .invalidParameter)
  else .refused .notReady

end Sys2Proof.Machine
end

