-- ==== Sys2Proof/Machine/Wave.lean ====
section
/-! DEFINITION. The control encoder and output wave requests CTRLENC and SETOW (spec/44_output_wave.md R192, R193). -/

namespace Sys2Proof.Machine

/-- CTRLENC (R192). -/
def execCtrlenc (mode : Byte) (s : State) : StepOutcome :=
  match ctrlEnc mode with
  | some c => .next ((s.accept .ctrlenc).succeed [c])
  | none   => .next ((s.accept .ctrlenc).raise .invalidParameter)

/-- SETOW (R193): one one-byte Write of the whole control byte to register 0x07 (R194). -/
def execSetow (mode : Byte) (s : State) : StepOutcome :=
  if s.life = .ready then
    match ctrlEnc mode with
    | some c => ((s.accept .setow).planWrite 0x07 [c]).run
    | none   => .next ((s.accept .setow).raise .invalidParameter)
  else .refused .notReady

end Sys2Proof.Machine
end

