-- ==== Sys2Proof/Machine/Dispatch.lean ====
section
/-! DEFINITION. The one dispatch from a request to its meaning, one arm per row of spec/opcode_table.json. -/

namespace Sys2Proof.Machine

def exec (i : Instr) (s : State) : Host.Outcome State Fault Refusal :=
  match i with
  | .init => Sys2Proof.Machine.execInit s
  | .deinit => Sys2Proof.Machine.execDeinit s
  | .setdt dt halt => Sys2Proof.Machine.execSetdt dt halt s
  | .getdt => Sys2Proof.Machine.execGetdt s
  | .wrram offset data => Sys2Proof.Machine.execWrram offset data s
  | .rdram offset size => Sys2Proof.Machine.execRdram offset size s
  | .setow mode => Sys2Proof.Machine.execSetow mode s
  | .bcdenc value => Sys2Proof.Machine.execBcdenc value s
  | .bcddec byte => Sys2Proof.Machine.execBcddec byte s
  | .secenc value halt => Sys2Proof.Machine.execSecenc value halt s
  | .secdec byte => Sys2Proof.Machine.execSecdec byte s
  | .ctrlenc mode => Sys2Proof.Machine.execCtrlenc mode s
  | .adec addr => Sys2Proof.Machine.execAdec addr s
  | .pwrite start data => Sys2Proof.Machine.execPwrite start data s
  | .pread start count => Sys2Proof.Machine.execPread start count s

end Sys2Proof.Machine
end

