-- ==== Sys2Proof/Machine/Port.lean ====
section
/-! DEFINITION. The request port and the configuration inputs: how a presented request is taken, held or rejected, and what the other host
moves do (spec/30_encoding.md R95, spec/46_lifecycle.md R223, spec/70_reset_and_hazards.md R270, R275). -/

namespace Sys2Proof.Machine

/-- Decode a request and run it; an empty string is no request (R95, log 8), a rejected one is refused (R82, R84, R86). -/
def runRequest (bytes : List Byte) (s : State) : StepOutcome :=
  match decode bytes with
  | .ok i              => exec i s
  | .error .noRequest  => .next s
  | .error .illegalOp  => .refused .illegalOp
  | .error .malformed  => .refused .malformed

/-- A new configuration. Another slave address names another chip (R50), and the spec does not say what is then known of it: the model's
choice is that nothing is, neither register nor pointer (log 23). -/
def State.rebind (b : Binding) (s : State) : State :=
  if b.slaveAddr = s.binding.slaveAddr then { s with binding := b }
  else State.losePointer { s with binding := b, chip := [] }

/-- A binding presented while IDLE: taken in UNINIT, no move in READY (R27, R223, log 6). -/
def bindIdle (b : Binding) (s : State) : StepOutcome :=
  if s.life = .uninit then .next (s.rebind b) else .fault .bindingFixed

/-- The move of an IDLE engine: the reset input, which is taken "at any time" (R270), before every held request; then the oldest held
request (log 7); then the host's next move; with none of them it waits (R271, log 3). -/
def idleStep (s : State) : StepOutcome :=
  match s.inputs, s.port with
  | .reset :: rest, _            => .next (State.engineReset { s with inputs := rest })
  | _, bytes :: rest             => runRequest bytes { s with port := rest }
  | [], []                       => .next s
  | .request bytes :: rest, []   => runRequest bytes { s with inputs := rest }
  | .answer _ :: _, []           => .fault .answerWithoutCall
  | .bind b :: rest, []          => bindIdle b { s with inputs := rest }

/-- The move of a BUSY engine: on an answer it goes on, a request is held (R275), and with no host move it waits (R276, log 3). -/
def busyStep (s : State) : StepOutcome :=
  match s.inputs with
  | []                     => .next s
  | .answer _ :: _         => s.run
  | .request bytes :: rest => .next (State.hold bytes { s with inputs := rest })
  | .bind _ :: _           => .fault .bindingFixed
  | .reset :: rest         => .next (State.engineReset { s with inputs := rest })

/-- Whether a host move is the reset input. -/
def Input.isReset : Input → Bool
  | .reset => true
  | .request _ | .answer _ | .bind _ => false

/-- `s` with a byte string presented on the port of an IDLE engine, ahead of every other request. A reset input that stands next would be
taken before it (R270), so it is taken off (log 20). -/
def State.present (bytes : List Byte) (s : State) : State :=
  { s with phase := .idle, pending := none, port := bytes :: s.port, inputs := s.inputs.dropWhile Input.isReset }

end Sys2Proof.Machine
end

