-- ==== Sys2Proof/Machine/Step.lean ====
section
/-! DEFINITION. One step of the machine: the engine's move on the host's next move (spec/92_eei_decisions.md D1). -/

namespace Sys2Proof.Machine

/-- The next step, by `PHASE` (R25). -/
def step (s : State) : Host.Outcome State Fault Refusal :=
  match s.phase with
  | .idle => idleStep s
  | .busy => busyStep s

/-- `s` with a table word's request presented, so that the next step takes exactly it. The lifecycle state and the configuration are left
alone: whether a bus request is admitted is its meaning's business (R224). Log 20. -/
def State.withFetchWord (s : State) (nbits w : Nat) : State := s.present (tableBytes nbits w)

end Sys2Proof.Machine
end

