-- ==== Sys2Proof/Machine/Assembler.lean ====
section
/-! DEFINITION. The assembler syntax of spec/30_encoding.md R96, one request a line; there are no pseudo-instructions (R97).
A line is a list of characters. The machine does not use it. -/

namespace Sys2Proof.Machine.Assembler

/-- The tokens of a line: numbers, names and mnemonics are words. -/
inductive Token where
  | word (cs : List Char)
  | comma
  | hash
  | opening
  | closing
deriving DecidableEq, Repr

/-- The brace characters that open and close a data list. -/
def openBrace : Char := Char.ofNat 123
def closeBrace : Char := Char.ofNat 125

/-- A word collected in reverse, as a token ahead of `ts`; nothing where it is empty. -/
def flush (w : List Char) (ts : List Token) : List Token :=
  if w.isEmpty then ts else .word w.reverse :: ts

/-- Tokens of a line; `;` starts a comment. `w` is the word being collected, in reverse. -/
def lex : List Char → List Char → List Token
  | [], w => flush w []
  | c :: cs, w =>
    if c = ';' then flush w []
    else if c = ' ' || c = '\t' then flush w (lex cs [])
    else if c = ',' then flush w (.comma :: lex cs [])
    else if c = '#' then flush w (.hash :: lex cs [])
    else if c = openBrace then flush w (.opening :: lex cs [])
    else if c = closeBrace then flush w (.closing :: lex cs [])
    else lex cs (c :: w)

/-- The value of a digit below `base`. -/
def digit (base : Nat) (c : Char) : Option Nat :=
  let v :=
    if '0' ≤ c ∧ c ≤ '9' then c.toNat - 48
    else if 'a' ≤ c ∧ c ≤ 'f' then c.toNat - 87
    else if 'A' ≤ c ∧ c ≤ 'F' then c.toNat - 55
    else base
  if v < base then some v else none

/-- The value of a run of digits after a prefix of value `acc`. -/
def digits (base : Nat) : List Char → Nat → Option Nat
  | [], acc => some acc
  | c :: cs, acc =>
    match digit base c with
    | some v => digits base cs (acc * base + v)
    | none   => none

/-- A number, decimal or `0x` hexadecimal. -/
def number : List Char → Option Nat
  | '0' :: 'x' :: c :: cs => digits 16 (c :: cs) 0
  | c :: cs               => digits 10 (c :: cs) 0
  | []                    => none

/-- A number that is a byte. -/
def byte (w : List Char) : Option Byte :=
  match number w with
  | some v => if v < 256 then some (BitVec.ofNat 8 v) else none
  | none   => none

/-- An operand: a word, a raw value `#m`, or a data list. -/
inductive Operand where
  | word (cs : List Char)
  | raw (b : Byte)
  | list (bs : List Byte)
deriving DecidableEq, Repr

/-- The items of a data list up to its closing brace, at least one. -/
def items : List Token → Option (List Byte × List Token)
  | .word w :: .closing :: ts => (byte w).map (fun b => ([b], ts))
  | .word w :: .comma :: ts =>
    match byte w, items ts with
    | some b, some (bs, rest) => some (b :: bs, rest)
    | _, _ => none
  | _ => none

/-- A data list after its opening brace; it is the last operand of its line. -/
def dataList : List Token → Option (List Byte)
  | [.closing] => some []
  | ts =>
    match items ts with
    | some (bs, []) => some bs
    | _ => none

/-- The comma-separated operands of a line, at least one. -/
def operandsFrom : List Token → Option (List Operand)
  | [.word w] => some [.word w]
  | [.hash, .word w] => (byte w).map (fun b => [.raw b])
  | .word w :: .comma :: ts => (operandsFrom ts).map (.word w :: ·)
  | .opening :: ts => (dataList ts).map (fun bs => [.list bs])
  | _ => none

/-- The operands of a line. -/
def operands : List Token → Option (List Operand)
  | [] => some []
  | ts => operandsFrom ts

/-- The words of R96 for the named modes. -/
def modeWord : OutputMode → List Char
  | .off        => ['O', 'F', 'F']
  | .high       => ['H', 'I', 'G', 'H']
  | .sqw1Hz     => ['S', 'Q', 'W', '1', 'H', 'Z']
  | .sqw4096Hz  => ['S', 'Q', 'W', '4', 'K', 'H', 'Z']
  | .sqw8192Hz  => ['S', 'Q', 'W', '8', 'K', 'H', 'Z']
  | .sqw32768Hz => ['S', 'Q', 'W', '3', '2', 'K', 'H', 'Z']

def allModes : List OutputMode := [.off, .high, .sqw1Hz, .sqw4096Hz, .sqw8192Hz, .sqw32768Hz]

/-- A mode operand: one of the six words, or `#m`. -/
def mode : Operand → Option Byte
  | .word w => (allModes.find? (fun m => modeWord m == w)).map OutputMode.byte
  | .raw b  => some b
  | .list _ => none

/-- The mnemonics. -/
def mnemonic : Opcode → List Char
  | .init    => ['I', 'N', 'I', 'T']
  | .deinit  => ['D', 'E', 'I', 'N', 'I', 'T']
  | .setdt   => ['S', 'E', 'T', 'D', 'T']
  | .getdt   => ['G', 'E', 'T', 'D', 'T']
  | .wrram   => ['W', 'R', 'R', 'A', 'M']
  | .rdram   => ['R', 'D', 'R', 'A', 'M']
  | .setow   => ['S', 'E', 'T', 'O', 'W']
  | .bcdenc  => ['B', 'C', 'D', 'E', 'N', 'C']
  | .bcddec  => ['B', 'C', 'D', 'D', 'E', 'C']
  | .secenc  => ['S', 'E', 'C', 'E', 'N', 'C']
  | .secdec  => ['S', 'E', 'C', 'D', 'E', 'C']
  | .ctrlenc => ['C', 'T', 'R', 'L', 'E', 'N', 'C']
  | .adec    => ['A', 'D', 'E', 'C']
  | .pwrite  => ['P', 'W', 'R', 'I', 'T', 'E']
  | .pread   => ['P', 'R', 'E', 'A', 'D']

/-- The word `HALT`. -/
def haltWord : List Char := ['H', 'A', 'L', 'T']

/-- The one request a mnemonic and its operands stand for, row by row as R96 has it; a data list has exactly `size` bytes. -/
def request : Opcode → List Operand → Option Instr
  | .init, []   => some .init
  | .deinit, [] => some .deinit
  | .getdt, []  => some .getdt
  | .setdt, .word s :: .word mi :: .word h :: .word wd :: .word d :: .word mo :: .word y :: flags =>
    match byte s, byte mi, byte h, byte wd, byte d, byte mo, byte y with
    | some s, some mi, some h, some wd, some d, some mo, some y =>
      if flags = [] then some (.setdt ⟨s, mi, h, wd, d, mo, y⟩ false)
      else if flags = [.word haltWord] then some (.setdt ⟨s, mi, h, wd, d, mo, y⟩ true)
      else none
    | _, _, _, _, _, _, _ => none
  | .wrram, [.word off, .word size, .list data] =>
    match byte off, byte size with
    | some off, some size => if data.length = size.toNat then some (.wrram off data) else none
    | _, _ => none
  | .pwrite, [.word start, .word size, .list data] =>
    match byte start, byte size with
    | some start, some size => if data.length = size.toNat then some (.pwrite start data) else none
    | _, _ => none
  | .rdram, [.word off, .word size] =>
    match byte off, byte size with
    | some off, some size => some (.rdram off size)
    | _, _ => none
  | .pread, [.word start, .word count] =>
    match byte start, byte count with
    | some start, some count => some (.pread start count)
    | _, _ => none
  | .setow, [m]         => (mode m).map .setow
  | .ctrlenc, [m]       => (mode m).map .ctrlenc
  | .bcdenc, [.word v]  => (byte v).map .bcdenc
  | .bcddec, [.word b]  => (byte b).map .bcddec
  | .secenc, [.word v]  => (byte v).map (fun v => .secenc v false)
  | .secenc, [.word v, .word h] => if h = haltWord then (byte v).map (fun v => .secenc v true) else none
  | .secdec, [.word b]  => (byte b).map .secdec
  | .adec, [.word a]    => (byte a).map .adec
  | _, _ => none

/-- One assembler line; none for a blank line and for one that R96 does not have. -/
def line (cs : List Char) : Option Instr :=
  match lex cs [] with
  | .word m :: ts =>
    match Opcode.all.find? (fun o => mnemonic o == m), operands ts with
    | some op, some os => request op os
    | _, _ => none
  | _ => none

/-- One assembler line as request bytes. -/
def assemble (cs : List Char) : Option (List Byte) := (line cs).map encode

/-! ### How R96's table writes its rows. Statements use these; the assembler does not. -/

/-- The two ways R96 lets a byte be written as a number: decimal, or `0x` hexadecimal. -/
def Numeral (text : List Char) (v : Byte) : Prop :=
  text = Nat.toDigits 10 v.toNat ∨ text = '0' :: 'x' :: Nat.toDigits 16 v.toNat

/-- Operands as R96 writes them: a comma and a blank between two. -/
def commaText : List (List Char) → List Char
  | []           => []
  | [u]          => u
  | u :: v :: us => u ++ ',' :: ' ' :: commaText (v :: us)

/-- A line with operands: mnemonic, a blank, the operands. -/
def rowText (m : List Char) (operands : List (List Char)) : List Char := m ++ ' ' :: commaText operands

/-- A data list as R96 writes it, as one operand. -/
def listText (items : List (List Char)) : List Char := openBrace :: commaText items ++ [closeBrace]

end Sys2Proof.Machine.Assembler
end

