-- ==== Sys2Proof/Machine/Plan.lean ====
section
/-! DEFINITION. The closed form of the planner's traffic, as spec/41_transfer_planner.md R132 and R140 state it. The machine does not use it:
statements compare the machine's calls with it. -/

namespace Sys2Proof.Machine

/-- `ceil(len / (CAP - 1))`, the number of Sends of a Write of `len` bytes (R132). -/
def frameCount (cap len : Nat) : Nat := (len + (cap - 1) - 1) / (cap - 1)

/-- Send `j` of a Write, counting from 0: register address `(start + j * (CAP - 1)) mod 256`, then the data bytes from index
`j * (CAP - 1)`, at most `CAP - 1` of them (R132). -/
def planFrame (cap : Nat) (start : Byte) (data : List Byte) (j : Nat) : List Byte :=
  (start + BitVec.ofNat 8 (j * (cap - 1))) :: (data.drop (j * (cap - 1))).take (cap - 1)

/-- All frames of a Write in issue order (R132). -/
def planFrames (cap : Nat) (start : Byte) (data : List Byte) : List (List Byte) :=
  (List.range (frameCount cap data.length)).map (planFrame cap start data)

/-- Frames as Send calls to the engine's slave address (R130). -/
def State.sends (s : State) (frames : List (List Byte)) : List Call := frames.map (Call.send s.binding.slaveAddr)

/-- Host moves that begin with `k` answers OK to Sends or hooks. -/
def oks (k : Nat) (rest : List Input) : List Input := List.replicate k (.answer (.ok [])) ++ rest

/-- How many answers stand among host moves. -/
def answerCount (ins : List Input) : Nat :=
  ins.countP (fun i => match i with | .answer _ => true | _ => false)

end Sys2Proof.Machine
end

