-- ==== Sys2Proof/Safety.lean ====
section
/-! DEFINITION. What counts as a good state: the invariant that every step keeps, one named part per rule of spec/. -/

namespace Sys2Proof.Machine

/-- What INIT requires of the configuration: both functions bound, `CAP >= 2` (R220). -/
abbrev Binding.complete (b : Binding) : Prop :=
  b.sendPresent = true ∧ b.recvPresent = true ∧ 2 ≤ b.cap

/-- READY only with a complete configuration, which is then fixed (R223, R273). -/
abbrev State.ReadyBound (s : State) : Prop := s.life = .ready → s.binding.complete

/-- A call is outstanding exactly while BUSY (R25). -/
abbrev State.CallWhileBusy (s : State) : Prop := s.phase = .busy ↔ s.pending.isSome = true

/-- The requests whose operation is a planner Write, by `OP` (R51). -/
abbrev writeOps : List Byte := [Opcode.setdt.byte, Opcode.wrram.byte, Opcode.setow.byte, Opcode.pwrite.byte]

/-- The requests whose operation is a planner Read, by `OP` (R51). -/
abbrev readOps : List Byte := [Opcode.getdt.byte, Opcode.rdram.byte, Opcode.pread.byte]

/-- What holds of the outstanding call: it is the last call issued, and `OP`, `LIFE` and the sequencer fit it (R22, R24, R91, R93, R224). -/
abbrev State.PendingOk (s : State) (p : Pending) : Prop :=
  match p with
  | .write data =>
    s.life = .ready ∧ s.op ∈ writeOps ∧ s.cur.toNat < s.n.toNat ∧ s.n.toNat = data.length ∧
      s.calls.getLast? = some (.send s.binding.slaveAddr (s.frame data))
  | .position start _ =>
    s.life = .ready ∧ s.op ∈ readOps ∧ s.calls.getLast? = some (.send s.binding.slaveAddr [start])
  | .receive count =>
    s.life = .ready ∧ s.op ∈ readOps ∧ s.calls.getLast? = some (.receive s.binding.slaveAddr count)
  | .initHook =>
    s.life = .uninit ∧ s.op = Opcode.init.byte ∧ s.binding.complete ∧ s.calls.getLast? = some .initHook
  | .deinitHook =>
    s.life = .ready ∧ s.op = Opcode.deinit.byte ∧ s.calls.getLast? = some .deinitHook

/-- `PendingOk` of the outstanding call, where there is one. -/
abbrev State.PendingFits (s : State) : Prop := ∀ p ∈ s.pending, s.PendingOk p

/-- A response with a code other than Success has no payload (R89). -/
abbrev State.FailureBare (s : State) : Prop := ∀ r ∈ s.resp, r.code ≠ .success → r.payload = []

/-- The chip memory keeps its canonical form and lists mapped registers only (R52). -/
abbrev State.ChipOk (s : State) : Prop := s.chip.wf = true ∧ ∀ c ∈ s.chip, c.1 < mappedSize

/-- The invariant of the machine. -/
structure State.Inv (s : State) : Prop where
  readyBound    : s.ReadyBound
  callWhileBusy : s.CallWhileBusy
  pendingFits   : s.PendingFits
  failureBare   : s.FailureBare
  chipOk        : s.ChipOk

end Sys2Proof.Machine
end

