-- ==== Sys2Proof/Certificates/Slice0/Obligations.lean ====
section
/-! DEFINITION. The statements for the provers. Each docstring names the rule of spec/ it formalises; "the spec's own decision D<n>" marks a
clause that rests on spec/92_eei_decisions.md and "log <n>" one that rests on a choice of this model. -/

namespace Sys2Proof.Claims

open Sys2Proof.Machine

/-- `s` after a request of `op` that ended: `RESP` written, `IDLE`, no call outstanding (R240), `OP` still the opcode written at acceptance (R21,
log 18), everything else as before. -/
def ended (op : Opcode) (code : ResultCode) (payload : List Byte) (s : State) : State :=
  { s with phase := .idle, op := op.byte, pending := none, resp := some ⟨code, payload⟩ }

/-- `t` is `s` after a whole planner Write of `data` from `start` by `op`: calls, result, sequencer, chip, and everything that stays. -/
def WriteDone (s : State) (op : Opcode) (start : Byte) (data : List Byte) (rest : List Input) (t : State) : Prop :=
  t.phase = .idle ∧ t.pending = none ∧ t.resp = some ⟨.success, []⟩ ∧ t.op = op.byte ∧
  t.calls = s.calls ++ s.sends (planFrames s.binding.cap start data) ∧ t.inputs = rest ∧
  t.ptr = start + BitVec.ofNat 8 data.length ∧
  t.cur = BitVec.ofNat 8 data.length ∧ t.n = BitVec.ofNat 8 data.length ∧
  t.life = s.life ∧ t.binding = s.binding ∧ t.port = s.port ∧
  (start.toNat + data.length ≤ 64 → ∀ a, t.chip.read a =
    if start.toNat ≤ a ∧ a < start.toNat + data.length then data[a - start.toNat]? else s.chip.read a)

/-- `t` is `s` after a planner Write of `data` from `start` by `op` whose Send `j`, counting from 0, was the first to fail. -/
def WriteStopped (s : State) (op : Opcode) (start : Byte) (data : List Byte) (j : Nat) (rest : List Input) (t : State) : Prop :=
  t.phase = .idle ∧ t.pending = none ∧ t.resp = some ⟨.transportFailure, []⟩ ∧ t.op = op.byte ∧
  t.calls = s.calls ++ s.sends ((planFrames s.binding.cap start data).take (j + 1)) ∧ t.inputs = rest ∧
  t.ptr = start + BitVec.ofNat 8 (j * (s.binding.cap - 1)) ∧
  t.cur = BitVec.ofNat 8 (j * (s.binding.cap - 1)) ∧ t.n = BitVec.ofNat 8 data.length ∧
  t.life = s.life ∧ t.binding = s.binding ∧ t.port = s.port ∧
  (start.toNat + data.length ≤ 64 → ∀ a,
    (start.toNat ≤ a ∧ a < start.toNat + j * (s.binding.cap - 1) → t.chip.read a = data[a - start.toNat]?) ∧
    (start.toNat + j * (s.binding.cap - 1) ≤ a ∧
        a < start.toNat + min ((j + 1) * (s.binding.cap - 1)) data.length →
      t.chip.read a = data[a - start.toNat]? ∨ t.chip.read a = s.chip.read a) ∧
    (a < start.toNat ∨ start.toNat + min ((j + 1) * (s.binding.cap - 1)) data.length ≤ a →
      t.chip.read a = s.chip.read a))

/-- `t` is `s` after a planner Read by `op` that issued `calls` and answered `code` with `payload`. -/
def ReadEnded (s : State) (op : Opcode) (calls : List Call) (code : ResultCode) (payload : List Byte) (rest : List Input)
    (t : State) : Prop :=
  t.phase = .idle ∧ t.pending = none ∧ t.resp = some ⟨code, payload⟩ ∧ t.op = op.byte ∧
  t.calls = s.calls ++ calls ∧ t.inputs = rest ∧
  t.ptr = s.ptr ∧ t.cur = s.cur ∧ t.n = s.n ∧
  t.life = s.life ∧ t.binding = s.binding ∧ t.port = s.port ∧ t.chip = s.chip

/-- The three ways a planner Read of `count` registers from `start` by request `i` ends once the host answers: with the bytes received, passed
through `view`; at a failed positioning Send, with no Receive; at a failed Receive (R136). -/
def ReadsAs (i : Instr) (s : State) (start count : Byte) (view : List Byte → List Byte) : Prop :=
  (∀ bytes rest, bytes.length = count.toNat → s.inputs = .answer (.ok []) :: .answer (.ok bytes) :: rest →
    ∃ t, exec i s = .next t ∧ ReadEnded s i.opcode
      [.send s.binding.slaveAddr [start], .receive s.binding.slaveAddr count] .success (view bytes) rest t) ∧
  (∀ rest, s.inputs = .answer .fail :: rest →
    ∃ t, exec i s = .next t ∧ ReadEnded s i.opcode [.send s.binding.slaveAddr [start]] .transportFailure [] rest t) ∧
  (∀ rest, s.inputs = .answer (.ok []) :: .answer .fail :: rest →
    ∃ t, exec i s = .next t ∧ ReadEnded s i.opcode
      [.send s.binding.slaveAddr [start], .receive s.binding.slaveAddr count] .transportFailure [] rest t)

/-- The two ways a planner Write of `data` from `start` by request `i` ends once the host answers: all frames OK, or frame `j` the first to
fail (R131). -/
def WritesAs (i : Instr) (s : State) (start : Byte) (data : List Byte) : Prop :=
  (∀ rest, s.inputs = oks (frameCount s.binding.cap data.length) rest →
    ∃ t, exec i s = .next t ∧ WriteDone s i.opcode start data rest t) ∧
  (∀ j rest, j < frameCount s.binding.cap data.length → s.inputs = oks j (.answer .fail :: rest) →
    ∃ t, exec i s = .next t ∧ WriteStopped s i.opcode start data j rest t)

/-- Every field of a DateTime in its stated range (R151), spelled out. -/
abbrev FieldsInRange (dt : DateTime) : Prop :=
  dt.second.toNat ≤ 59 ∧ dt.minute.toNat ≤ 59 ∧ dt.hour.toNat ≤ 23 ∧
  (1 ≤ dt.weekday.toNat ∧ dt.weekday.toNat ≤ 7) ∧ (1 ≤ dt.day.toNat ∧ dt.day.toNat ≤ 31) ∧
  (1 ≤ dt.month.toNat ∧ dt.month.toNat ≤ 12) ∧ dt.year.toNat ≤ 99

/-- The packed BCD byte of a value 0 to 99, by its two digits (R110). -/
def packed (v : Byte) : Byte := BitVec.ofNat 8 (16 * (v.toNat / 10) + v.toNat % 10)

/-- The value of a byte read as two digits (R112). -/
def unpacked (b : Byte) : Byte := BitVec.ofNat 8 (10 * (b.toNat / 16) + b.toNat % 16)

/-- The seven register bytes of a DateTime in range, the halt bit worth 128 in the first (R32, R153). -/
def registerImage (dt : DateTime) (halt : Bool) : List Byte :=
  [BitVec.ofNat 8 ((if halt then 128 else 0) + 16 * (dt.second.toNat / 10) + dt.second.toNat % 10),
   packed dt.minute, packed dt.hour, packed dt.weekday, packed dt.day, packed dt.month, packed dt.year]

/-- The fields of a DateTime in register order (R150). -/
def fields (dt : DateTime) : List Byte := [dt.second, dt.minute, dt.hour, dt.weekday, dt.day, dt.month, dt.year]

/-- The requests that reach the chip (R51, R224). -/
def IsBus : Instr → Prop
  | .setdt _ _ | .getdt | .wrram _ _ | .rdram _ _ | .setow _ | .pwrite _ _ | .pread _ _ => True
  | .init | .deinit | .bcdenc _ | .bcddec _ | .secenc _ _ | .secdec _ | .ctrlenc _ | .adec _ => False

/-- The control byte the spec's table gives a mode value (R191). -/
def controlRow (mode : Byte) : Option Byte := [0x00, 0x80, 0x10, 0x11, 0x12, 0x13][mode.toNat]?

/-- `s` without what the chip is: two states equal under it differ in the chip's registers and pointer, and in the count of free values, only. -/
def withoutChip (s : State) : State := { s with chip := [], chipPtr := 0, draws := 0 }

/-- An outcome with its next state seen through `f`. -/
def mapNext (f : State → State) : StepOutcome → StepOutcome
  | .next s    => .next (f s)
  | .fault r   => .fault r
  | .refused r => .refused r

/-- The two ways an IDLE engine comes to take the byte string `bytes`, leaving the state `u`: it is the oldest held request and the reset input does
not stand next, or no request is held and it is the host's next move. That held requests come first is log 7. -/
def Takes (s : State) (bytes : List Byte) (u : State) : Prop :=
  s.phase = .idle ∧
    ((∃ rest, s.port = bytes :: rest ∧ (∀ moves, s.inputs ≠ .reset :: moves) ∧ u = { s with port := rest }) ∨
     (∃ moves, s.port = [] ∧ s.inputs = .request bytes :: moves ∧ u = { s with inputs := moves }))

/-- Whether the host's next move is an answer. -/
def NoAnswerNext (moves : List Input) : Prop := ∀ a rest, moves ≠ .answer a :: rest

/-- The requests, with operands that pass their checks, that begin a planner Write of `data` from `start`, at least one byte (R134, R153, R171,
R193). -/
def StartsWrite (i : Instr) (start : Byte) (data : List Byte) : Prop :=
  (∃ dt halt, i = .setdt dt halt ∧ FieldsInRange dt ∧ start = 0x00 ∧ data = registerImage dt halt) ∨
  (∃ offset, i = .wrram offset data ∧ 1 ≤ data.length ∧ offset.toNat + data.length ≤ 56 ∧ start = BitVec.ofNat 8 (offset.toNat + 8)) ∨
  (∃ mode c, i = .setow mode ∧ controlRow mode = some c ∧ start = 0x07 ∧ data = [c]) ∨
  (i = .pwrite start data ∧ 1 ≤ data.length ∧ data.length ≤ 255)

/-- The requests, with operands that pass their checks, that begin a planner Read of `count` registers from `start` (R138, R155, R172). -/
def StartsRead (i : Instr) (start count : Byte) : Prop :=
  (i = .getdt ∧ start = 0x00 ∧ count = 7) ∨
  (∃ offset, i = .rdram offset count ∧ 1 ≤ count.toNat ∧ offset.toNat + count.toNat ≤ 56 ∧
    start = BitVec.ofNat 8 (offset.toNat + 8)) ∨
  i = .pread start count

/-- `s` with another send-buffer capacity. -/
def withCap (c : Nat) (s : State) : State := { s with binding := { s.binding with cap := c } }

end Sys2Proof.Claims

open Sys2Proof Sys2Proof.Machine Sys2Proof.Claims

/-! ### Decoding and the step -/

/-- R95, R275: an IDLE engine takes the oldest held request, and with no held request the request that is the host's next
move; a step on it is exec of the decoded request. That held requests come first is this model's choice, log 7. -/
def Obligations.IdleStepRunsTheDecodedRequest : Prop :=
  ∀ (s u : State) (bytes : List Byte) (i : Instr), Takes s bytes u → decode bytes = .ok i → step s = exec i u

/-- Log 20 and log 21, the model's own: the word the decoder reads is the word the next step runs, in every state; a reset input that stands next is
taken off. -/
def Obligations.PresentedTableWordRunsNext : Prop :=
  ∀ (s : State) (nbits w : Nat) (i : Instr), decodeTableWord nbits w = some i →
    step (s.withFetchWord nbits w) =
      exec i { s with phase := .idle, pending := none, inputs := s.inputs.dropWhile Input.isReset }

/-- R81, R83, R86, R96: bytes written out from the tables, for every format and family. The encoding is the spec's own decision D3. -/
def Obligations.SampleRequestsDecode : Prop :=
  decode [0x01] = .ok .init ∧ decode [0x02] = .ok .deinit ∧
  decode [0x03, 0x3A, 0x3B, 0x17, 0x02, 0x1F, 0x0C, 0x18, 0x01] = .ok (.setdt ⟨58, 59, 23, 2, 31, 12, 24⟩ true) ∧
  decode [0x05, 0x32, 0x02, 0xAB, 0xCD] = .ok (.wrram 50 [0xAB, 0xCD]) ∧
  decode [0x07, 0x02] = .ok (.setow 2) ∧ decode [0x12, 0x3B, 0x01] = .ok (.secenc 59 true) ∧
  decode [0x15, 0x3A] = .ok (.adec 0x3A) ∧ decode [0x17, 0x00, 0x07] = .ok (.pread 0 7)

/-- R80 to R87: no bit of a well-formed request is lost. The encoding is the spec's own decision D3. -/
def Obligations.DecodeInvertsEncode : Prop :=
  ∀ i : Instr, i.wf = true → decode (encode i) = .ok i

/-- R80 to R87, R95: an accepted byte string is the encoding of the request it is read as, and that request is well-formed; so no two byte
strings stand for one request. The encoding is the spec's own decision D3. -/
def Obligations.EncodeInvertsDecode : Prop :=
  ∀ (bytes : List Byte) (i : Instr), decode bytes = .ok i → i.wf = true ∧ encode i = bytes

/-- R82, R95: a reserved opcode selects no operation whatever follows it, and a step on it is refused IllegalOp (the spec's own decision D31). -/
def Obligations.ReservedOpcodesRefused : Prop :=
  ∀ (b : Byte) (args : List Byte), (b.toNat = 0 ∨ (0x08 ≤ b.toNat ∧ b.toNat ≤ 0x0F) ∨ 0x18 ≤ b.toNat) →
    decode (b :: args) = .error .illegalOp ∧ ∀ s u : State, Takes s (b :: args) u → step s = .refused .illegalOp

/-- R84, R86, R95: a request with an assigned opcode is accepted exactly when its length is the one R84 gives and, for SETDT and SECENC, bits 7:1 of its
flags byte are 0; otherwise it is malformed. The spec's own decisions D3 and D30. -/
def Obligations.RequestAcceptedExactlyByLengthAndFlags : Prop :=
  ∀ (b : Byte) (args : List Byte) (k : Nat), requestLength b ((b :: args).getD 2 0) = some k →
    (((b :: args).length = k ∧ (b.toNat = 0x03 → (args.getD 7 0).toNat ≤ 1) ∧ (b.toNat = 0x12 → (args.getD 1 0).toNat ≤ 1)) →
      ∃ i, decode (b :: args) = .ok i) ∧
    (((b :: args).length ≠ k ∨ (b.toNat = 0x03 ∧ 1 < (args.getD 7 0).toNat) ∨ (b.toNat = 0x12 ∧ 1 < (args.getD 1 0).toNat)) →
      decode (b :: args) = .error .malformed)

/-- R95, R84, R86: a step on a malformed byte string is refused Malformed; an empty string is no request, and is dropped with nothing else changed
(log 8). -/
def Obligations.RequestPortRejections : Prop :=
  ∀ (s u : State) (bytes : List Byte), Takes s bytes u →
    (decode bytes = .error .malformed → step s = .refused .malformed) ∧ (bytes = [] → step s = .next u)

/-- R96, R85: a line that is accepted stands for a well-formed request; a comment changes nothing; and every row of R96's table, written out with any
operand values in decimal or hexadecimal, assembles to the bytes the table gives, a data list only with exactly `size` bytes. The spec's own decision
D3. -/
def Obligations.AssembledLinesAreRequests : Prop :=
  (∀ cs i, Assembler.line cs = some i → i.wf = true) ∧
  (∀ cs comment, Assembler.assemble (cs ++ ';' :: comment) = Assembler.assemble cs) ∧
  Assembler.assemble ['I', 'N', 'I', 'T'] = some [0x01] ∧
  Assembler.assemble ['D', 'E', 'I', 'N', 'I', 'T'] = some [0x02] ∧
  Assembler.assemble ['G', 'E', 'T', 'D', 'T'] = some [0x04] ∧
  (∀ texts dt, List.Forall₂ Assembler.Numeral texts (fields dt) →
    Assembler.assemble (Assembler.rowText ['S', 'E', 'T', 'D', 'T'] texts) = some (0x03 :: fields dt ++ [0x00]) ∧
    Assembler.assemble (Assembler.rowText ['S', 'E', 'T', 'D', 'T'] (texts ++ [['H', 'A', 'L', 'T']])) = some (0x03 :: fields dt ++ [0x01])) ∧
  (∀ u v, Assembler.Numeral u v →
    Assembler.assemble (Assembler.rowText ['B', 'C', 'D', 'E', 'N', 'C'] [u]) = some [0x10, v] ∧
    Assembler.assemble (Assembler.rowText ['B', 'C', 'D', 'D', 'E', 'C'] [u]) = some [0x11, v] ∧
    Assembler.assemble (Assembler.rowText ['S', 'E', 'C', 'D', 'E', 'C'] [u]) = some [0x13, v] ∧
    Assembler.assemble (Assembler.rowText ['A', 'D', 'E', 'C'] [u]) = some [0x15, v] ∧
    Assembler.assemble (Assembler.rowText ['S', 'E', 'C', 'E', 'N', 'C'] [u]) = some [0x12, v, 0x00] ∧
    Assembler.assemble (Assembler.rowText ['S', 'E', 'C', 'E', 'N', 'C'] [u, ['H', 'A', 'L', 'T']]) = some [0x12, v, 0x01] ∧
    Assembler.assemble (Assembler.rowText ['S', 'E', 'T', 'O', 'W'] ['#' :: u]) = some [0x07, v] ∧
    Assembler.assemble (Assembler.rowText ['C', 'T', 'R', 'L', 'E', 'N', 'C'] ['#' :: u]) = some [0x14, v]) ∧
  (∀ row ∈ ([(['O', 'F', 'F'], 0),
      (['H', 'I', 'G', 'H'], 1),
      (['S', 'Q', 'W', '1', 'H', 'Z'], 2),
      (['S', 'Q', 'W', '4', 'K', 'H', 'Z'], 3),
      (['S', 'Q', 'W', '8', 'K', 'H', 'Z'], 4),
      (['S', 'Q', 'W', '3', '2', 'K', 'H', 'Z'], 5)] : List (List Char × Byte)),
    Assembler.assemble (Assembler.rowText ['S', 'E', 'T', 'O', 'W'] [row.1]) = some [0x07, row.2] ∧
    Assembler.assemble (Assembler.rowText ['C', 'T', 'R', 'L', 'E', 'N', 'C'] [row.1]) = some [0x14, row.2]) ∧
  (∀ u w a n, Assembler.Numeral u a → Assembler.Numeral w n →
    Assembler.assemble (Assembler.rowText ['R', 'D', 'R', 'A', 'M'] [u, w]) = some [0x06, a, n] ∧
    Assembler.assemble (Assembler.rowText ['P', 'R', 'E', 'A', 'D'] [u, w]) = some [0x17, a, n]) ∧
  (∀ u w a n items data, Assembler.Numeral u a → Assembler.Numeral w n → List.Forall₂ Assembler.Numeral items data → data ≠ [] →
    Assembler.assemble (Assembler.rowText ['W', 'R', 'R', 'A', 'M'] [u, w, Assembler.listText items]) =
      (if data.length = n.toNat then some (0x05 :: a :: n :: data) else none) ∧
    Assembler.assemble (Assembler.rowText ['P', 'W', 'R', 'I', 'T', 'E'] [u, w, Assembler.listText items]) =
      (if data.length = n.toNat then some (0x16 :: a :: n :: data) else none))

/-! ### Invariants -/

/-- R22, R24, R25, R52, R89, R91, R93, R223: the invariant of Safety.lean, kept by every step of every state that meets it. -/
def Obligations.StepKeepsInvariant : Prop :=
  ∀ s t : State, s.Inv → step s = .next t → t.Inv

/-- R271: the invariant holds after reset. -/
def Obligations.ResetMeetsInvariant : Prop := State.reset.Inv

/-- R26: `LIFE` becomes READY only by a successful INIT, and UNINIT only by DEINIT or the reset input. The spec's own decisions D6 and D29. -/
def Obligations.OnlyLifecycleRequestsChangeLife : Prop :=
  ∀ s t : State, s.Inv → step s = .next t →
    (s.life = .uninit → t.life = .ready → t.op = 0x01 ∧ t.resp = some ⟨.success, []⟩) ∧
    (s.life = .ready → t.life = .uninit → t.op = 0x02 ∨ ∃ rest, s.inputs = .reset :: rest)

/-! ### Reset -/

/-- R271: the state after reset. The reset is the spec's own decision D29. That no chip register has a known value is this model's choice, logs 10
and 17. The registers OP, PTR, CUR, N, the configuration and the chip's pointer are not part of the statement. -/
def Obligations.ResetLeavesEngineIdle : Prop :=
  State.reset.life = .uninit ∧ State.reset.phase = .idle ∧ State.reset.resp = none ∧ State.reset.pending = none ∧
  State.reset.calls = [] ∧ State.reset.chip = []

/-- R270, R271, R272: the reset input, in every state in which it is the host's next move, held requests or not, abandons the operation, issues no
call and leaves the configuration and the chip. The spec's own decision D29. Of a frame in flight R270 says only that it is unknown what the chip did:
that each of its registers then holds its old or its new byte, and every other is unchanged, is log 11; that held requests stay held is log 7. -/
def Obligations.ResetInputAbandonsTheOperation : Prop :=
  ∀ (s : State) (rest : List Input), s.inputs = .reset :: rest →
    ∃ t, step s = .next t ∧ t.life = .uninit ∧ t.phase = .idle ∧ t.resp = none ∧ t.pending = none ∧
      t.calls = s.calls ∧ t.binding = s.binding ∧ t.port = s.port ∧ t.inputs = rest ∧
      ((∀ data, s.pending ≠ some (.write data)) → t.chip = s.chip) ∧
      (∀ data, s.pending = some (.write data) → s.ptr.toNat + (s.chunk data).length ≤ 64 → ∀ a,
        t.chip.read a = s.chip.read a ∨
        (s.ptr.toNat ≤ a ∧ a < s.ptr.toNat + (s.chunk data).length ∧ t.chip.read a = (s.chunk data)[a - s.ptr.toNat]?))

/-! ### Codec -/

/-- R110, R111: BCDENC gives the byte whose nibbles are the two digits, and is refused for 100 to 255 (the spec's own decision D35). -/
def Obligations.BcdencPacksDigits : Prop :=
  ∀ (v : Byte) (s : State),
    (v.toNat ≤ 99 → ∃ b : Byte, b.toNat / 16 = v.toNat / 10 ∧ b.toNat % 16 = v.toNat % 10 ∧
      exec (.bcdenc v) s = .next (ended .bcdenc .success [b] s)) ∧
    (100 ≤ v.toNat → exec (.bcdenc v) s = .refused .bcdDomain)

/-- R112: BCDDEC always succeeds with tens times ten plus units, whatever the nibbles. For a byte that is not BCD this is the spec's own decision D10. -/
def Obligations.BcddecWeighsNibbles : Prop :=
  ∀ (b : Byte) (s : State), ∃ v : Byte, v.toNat = b.toNat / 16 * 10 + b.toNat % 16 ∧ v.toNat ≤ 165 ∧
    exec (.bcddec b) s = .next (ended .bcddec .success [v] s)

/-- R113: SECENC puts `halt` in bit 7 and bits 6:0 of the BCD byte below it; refused for 100 to 255. The spec's own decisions D34 and D35. -/
def Obligations.SecencForcesHaltBit : Prop :=
  ∀ (v : Byte) (halt : Bool) (s : State),
    (v.toNat ≤ 99 → ∃ b : Byte, b.getLsbD 7 = halt ∧ b.toNat % 128 = (packed v).toNat % 128 ∧
      exec (.secenc v halt) s = .next (ended .secenc .success [b] s)) ∧
    (100 ≤ v.toNat → exec (.secenc v halt) s = .refused .bcdDomain)

/-- R114: SECDEC always succeeds, in either lifecycle state, with `b[6:4] * 10 + b[3:0]`, at most 85, the same for `b` and `b ^ 0x80`; it writes `RESP`
and makes no call. -/
def Obligations.SecdecMasksHaltBit : Prop :=
  ∀ (b : Byte) (s : State), ∃ v : Byte, v.toNat = b.toNat % 128 / 16 * 10 + b.toNat % 16 ∧ v.toNat ≤ 85 ∧
    exec (.secdec b) s = .next (ended .secdec .success [v] s) ∧
    exec (.secdec (b ^^^ 0x80)) s = .next (ended .secdec .success [v] s)

/-- R115: the round trips of the codec, between requests: decoding what BCDENC answered gives the value back, for SECENC for values up to 79, and
BCDENC of what BCDDEC answered to a well-formed BCD byte gives the byte back. -/
def Obligations.CodecRoundTrips : Prop :=
  ∀ (s t u : State) (v w : Byte) (halt : Bool),
    (exec (.bcdenc v) s = .next t → t.resp = some ⟨.success, [w]⟩ → exec (.bcddec w) u = .next (ended .bcddec .success [v] u)) ∧
    (v.toNat ≤ 79 → exec (.secenc v halt) s = .next t → t.resp = some ⟨.success, [w]⟩ →
      exec (.secdec w) u = .next (ended .secdec .success [v] u)) ∧
    (v.toNat / 16 ≤ 9 → v.toNat % 16 ≤ 9 → exec (.bcddec v) s = .next t → t.resp = some ⟨.success, [w]⟩ →
      exec (.bcdenc w) u = .next (ended .bcdenc .success [v] u))

/-! ### Control encoder and address decoder -/

/-- R191, R192: CTRLENC answers the table's byte for modes 0 to 5 and InvalidParameter for 6 to 255. Mode numbers and five of the bytes are the
spec's own decisions D12 and D13. -/
def Obligations.CtrlencLooksUpMode : Prop :=
  ∀ (mode : Byte) (s : State),
    (∀ c, controlRow mode = some c → exec (.ctrlenc mode) s = .next (ended .ctrlenc .success [c] s)) ∧
    (6 ≤ mode.toNat → exec (.ctrlenc mode) s = .next (ended .ctrlenc .invalidParameter [] s))

/-- R52, R90, R210, R211: ADEC answers class and index of each region. The decoder, its codes and the UNMAPPED region are the spec's own decisions
D14 and D15. -/
def Obligations.AdecClassifiesRegister : Prop :=
  ∀ (a : Byte) (s : State),
    (a.toNat ≤ 6 → exec (.adec a) s = .next (ended .adec .success [0x00, a] s)) ∧
    (a.toNat = 7 → exec (.adec a) s = .next (ended .adec .success [0x01, 0x00] s)) ∧
    (∀ o : Byte, a.toNat = o.toNat + 8 → o.toNat ≤ 55 → exec (.adec a) s = .next (ended .adec .success [0x02, o] s)) ∧
    (0x40 ≤ a.toNat → exec (.adec a) s = .next (ended .adec .success [0x03, 0x00] s))

/-! ### Lifecycle -/

/-- R220, R221: INIT in READY is a no-op Success; with a function unbound or `CAP < 2` it gives InitError; with no hook it makes the engine READY; with
a hook it calls it once, and the hook's answer decides. Beside what the rules name only `OP` is written (log 18, as in `ended` throughout). The spec's
own decision D7. -/
def Obligations.InitFollowsItsRule : Prop :=
  ∀ s : State,
    (s.life = .ready → exec .init s = .next (ended .init .success [] s)) ∧
    (s.life = .uninit → ¬ s.binding.complete → exec .init s = .next (ended .init .initError [] s)) ∧
    (s.life = .uninit → s.binding.complete → s.binding.initHook = false →
      exec .init s = .next { ended .init .success [] s with life := .ready }) ∧
    (∀ rest, s.life = .uninit → s.binding.complete → s.binding.initHook = true → s.inputs = .answer (.ok []) :: rest →
      exec .init s = .next { ended .init .success [] s with life := .ready, calls := s.calls ++ [.initHook], inputs := rest }) ∧
    (∀ rest, s.life = .uninit → s.binding.complete → s.binding.initHook = true → s.inputs = .answer .fail :: rest →
      exec .init s = .next { ended .init .initError [] s with calls := s.calls ++ [.initHook], inputs := rest })

/-- R222: DEINIT in UNINIT is a no-op Success; otherwise it makes the engine UNINIT, calling the hook once where one is bound; the chip stays as it
is. Beside what the rule names only `OP` is written (log 18, as in `ended` throughout). The spec's own decision D8; the result code of a failing hook is
a guess there (U19). -/
def Obligations.DeinitFollowsItsRule : Prop :=
  ∀ s : State,
    (s.life = .uninit → exec .deinit s = .next (ended .deinit .success [] s)) ∧
    (s.life = .ready → s.binding.deinitHook = false →
      exec .deinit s = .next { ended .deinit .success [] s with life := .uninit }) ∧
    (∀ rest, s.life = .ready → s.binding.deinitHook = true → s.inputs = .answer (.ok []) :: rest →
      exec .deinit s =
        .next { ended .deinit .success [] s with life := .uninit, calls := s.calls ++ [.deinitHook], inputs := rest }) ∧
    (∀ rest, s.life = .ready → s.binding.deinitHook = true → s.inputs = .answer .fail :: rest →
      exec .deinit s =
        .next { ended .deinit .transportFailure [] s with life := .uninit, calls := s.calls ++ [.deinitHook], inputs := rest })

/-- R224, R242: exactly which executions are refused: a bus request while not READY, and a BCD encode of 100 to 255. The spec's own decisions D6 and D35. -/
def Obligations.RefusalsAreExactlyTheListed : Prop :=
  ∀ (i : Instr) (s : State),
    (exec i s = .refused .notReady ↔ IsBus i ∧ s.life ≠ .ready) ∧
    (exec i s = .refused .bcdDomain ↔
      ∃ v : Byte, 100 ≤ v.toNat ∧ (i = .bcdenc v ∨ ∃ halt, i = .secenc v halt)) ∧
    (∀ r, exec i s = .refused r → r = .notReady ∨ r = .bcdDomain)

/-! ### Clock -/

/-- R153, R151: the whole rule of SETDT: refused in UNINIT, InvalidParameter for a field out of range, otherwise one seven-byte Write from
register 0x00, to its end or to its first failed Send. `CAP >= 2` is the invariant of READY. -/
def Obligations.SetdtFollowsItsRule : Prop :=
  ∀ (dt : DateTime) (halt : Bool) (s : State),
    (s.life = .uninit → exec (.setdt dt halt) s = .refused .notReady) ∧
    (s.life = .ready → ¬ FieldsInRange dt →
      exec (.setdt dt halt) s = .next (ended .setdt .invalidParameter [] s)) ∧
    (s.life = .ready → 2 ≤ s.binding.cap → FieldsInRange dt →
      WritesAs (.setdt dt halt) s 0x00 (registerImage dt halt))

/-- R151: in a READY engine SETDT ends with InvalidParameter exactly when a field is out of its range, and no call is issued for such a DateTime:
nothing is clamped. -/
def Obligations.SetdtRejectsExactlyOutOfRange : Prop :=
  ∀ (dt : DateTime) (halt : Bool) (s : State), s.life = .ready →
    ((∃ t, exec (.setdt dt halt) s = .next t ∧ t.phase = .idle ∧ t.resp = some ⟨.invalidParameter, []⟩) ↔ ¬ FieldsInRange dt) ∧
    (∀ t, exec (.setdt dt halt) s = .next t → ¬ FieldsInRange dt → t.calls = s.calls)

/-- R153, R279: with `CAP >= 8` SETDT is one Send of `[0x00]` and the seven bytes, bit 7 of the first being `halt` (R154, the spec's own decision D9). -/
def Obligations.SetdtIsOneFrameAtLargeCap : Prop :=
  ∀ (dt : DateTime) (halt : Bool) (s : State) (rest : List Input),
    s.life = .ready → 8 ≤ s.binding.cap → FieldsInRange dt → s.inputs = .answer (.ok []) :: rest →
    (registerImage dt halt).head?.map (·.getLsbD 7) = some halt ∧
    ∃ t, exec (.setdt dt halt) s = .next t ∧ t.resp = some ⟨.success, []⟩ ∧ t.inputs = rest ∧
      t.calls = s.calls ++ [.send s.binding.slaveAddr (0x00 :: registerImage dt halt)] ∧
      ∀ k, k < 7 → t.chip.read k = (registerImage dt halt)[k]?

/-- R155, R112, R114: the whole rule of GETDT: refused in UNINIT; otherwise one Read of seven registers from 0x00, the first byte decoded without bit 7,
the others whole. That bytes which are not BCD decode by the formula is the spec's own decision D10. -/
def Obligations.GetdtFollowsItsRule : Prop :=
  ∀ s : State,
    (s.life = .uninit → exec .getdt s = .refused .notReady) ∧
    (s.life = .ready → ReadsAs .getdt s 0x00 7
      (fun bytes => match bytes with | [] => [] | b :: bs => unpacked (b &&& 0x7F) :: bs.map unpacked))

/-- R156: a GETDT whose Read fails answers TransportFailure with no payload, whether the FAIL stands next when it is taken (log 2) or comes while the
engine is BUSY with it; and whatever the host answers at once, a GETDT that has ended holds TransportFailure with no payload, "never returns
partially-decoded data on failure", or Success with seven values. That OP marks the operation in flight is R21. -/
def Obligations.GetdtNeverPartiallyDecoded : Prop :=
  (∀ s t : State, exec .getdt s = .next t →
    (∀ rest, s.inputs = .answer .fail :: rest → t.phase = .idle ∧ t.resp = some ⟨.transportFailure, []⟩) ∧
    (∀ rest, s.inputs = .answer (.ok []) :: .answer .fail :: rest →
      t.phase = .idle ∧ t.resp = some ⟨.transportFailure, []⟩) ∧
    (t.phase = .idle →
      t.resp = some ⟨.transportFailure, []⟩ ∨ ∃ p, t.resp = some ⟨.success, p⟩ ∧ p.length = 7)) ∧
  (∀ (s : State) (rest : List Input), s.Inv → s.phase = .busy → s.op = 0x04 → s.inputs = .answer .fail :: rest →
    ∃ t, step s = .next t ∧ t.phase = .idle ∧ t.resp = some ⟨.transportFailure, []⟩)

/-- U7, D10: whatever the host answers, GETDT's seconds are at most 85 and its other values at most 165; nothing tighter is promised. -/
def Obligations.GetdtValuesBounded : Prop :=
  ∀ (s t : State) (p : List Byte), exec .getdt s = .next t → t.phase = .idle → t.resp = some ⟨.success, p⟩ →
    (∀ v ∈ p.head?, v.toNat ≤ 85) ∧ ∀ v ∈ p.tail, v.toNat ≤ 165

/-- P1 of spec/95_test_vectors.md, R153, R155: SETDT, then a GETDT that the host answers with what the chip's registers were written, returns the
fields that were set, whatever the halt bit. That the host so answers is a premise, log 14. -/
def Obligations.SetdtThenGetdtReadsBack : Prop :=
  ∀ (dt : DateTime) (halt : Bool) (s : State) (rest : List Input),
    s.life = .ready → 2 ≤ s.binding.cap → FieldsInRange dt → s.inputs = oks (frameCount s.binding.cap 7) rest →
    ∃ t, exec (.setdt dt halt) s = .next t ∧
      ∀ (bytes : List Byte) (rest' : List Input), bytes.length = 7 → (∀ k, k < 7 → t.chip.read k = bytes[k]?) →
        ∃ u, exec .getdt { t with inputs := .answer (.ok []) :: .answer (.ok bytes) :: rest' } = .next u ∧
          u.resp = some ⟨.success, fields dt⟩

/-! ### RAM window -/

/-- R170, R171, R53: the whole rule of WRRAM. That size 0 is InvalidParameter and that the sum does not wrap is the spec's own decision D21. -/
def Obligations.WrramFollowsItsRule : Prop :=
  ∀ (offset : Byte) (data : List Byte) (s : State),
    (s.life = .uninit → exec (.wrram offset data) s = .refused .notReady) ∧
    (s.life = .ready → data.length = 0 ∨ 56 < offset.toNat + data.length →
      exec (.wrram offset data) s = .next (ended .wrram .invalidParameter [] s)) ∧
    (s.life = .ready → 2 ≤ s.binding.cap → 1 ≤ data.length → offset.toNat + data.length ≤ 56 →
      WritesAs (.wrram offset data) s (BitVec.ofNat 8 (offset.toNat + 8)) data)

/-- R172, R170, R53: the whole rule of RDRAM: the same check as WRRAM, then one Read, never chunked, of unconverted bytes. The check at size 0 is the
spec's own decision D21. -/
def Obligations.RdramFollowsItsRule : Prop :=
  ∀ (offset size : Byte) (s : State),
    (s.life = .uninit → exec (.rdram offset size) s = .refused .notReady) ∧
    (s.life = .ready → size.toNat = 0 ∨ 56 < offset.toNat + size.toNat →
      exec (.rdram offset size) s = .next (ended .rdram .invalidParameter [] s)) ∧
    (s.life = .ready → 1 ≤ size.toNat → offset.toNat + size.toNat ≤ 56 →
      ReadsAs (.rdram offset size) s (BitVec.ofNat 8 (offset.toNat + 8)) size id)

/-- R173, R53, R134, R138: besides the window check and the bias, WRRAM and RDRAM are PWRITE and PREAD, the spec's own decision D5: the same outcome but
for `OP`, which keeps the request's opcode (log 18), whatever the host answers at once (log 2). -/
def Obligations.RamRequestsAreThinWrappers : Prop :=
  ∀ (offset size : Byte) (data : List Byte) (s : State), s.life = .ready →
    (1 ≤ data.length → offset.toNat + data.length ≤ 56 →
      exec (.wrram offset data) s = mapNext (fun t => { t with op := 0x05 }) (exec (.pwrite (offset + 8) data) s)) ∧
    (1 ≤ size.toNat → offset.toNat + size.toNat ≤ 56 →
      exec (.rdram offset size) s = mapNext (fun t => { t with op := 0x06 }) (exec (.pread (offset + 8) size) s))

/-- P2 of spec/95_test_vectors.md, R171, R172: WRRAM, then an RDRAM of the same window that the host answers with what the chip's registers were
written, returns the data. That the host so answers is a premise, log 14. -/
def Obligations.WrramThenRdramReadsBack : Prop :=
  ∀ (offset : Byte) (data : List Byte) (s : State) (rest : List Input),
    s.life = .ready → 2 ≤ s.binding.cap → 1 ≤ data.length → offset.toNat + data.length ≤ 56 →
    s.inputs = oks (frameCount s.binding.cap data.length) rest →
    ∃ t, exec (.wrram offset data) s = .next t ∧
      ∀ (bytes : List Byte) (rest' : List Input), bytes.length = data.length →
        (∀ k, k < data.length → t.chip.read (offset.toNat + 8 + k) = bytes[k]?) →
        ∃ u, exec (.rdram offset (BitVec.ofNat 8 data.length))
            { t with inputs := .answer (.ok []) :: .answer (.ok bytes) :: rest' } = .next u ∧
          u.resp = some ⟨.success, data⟩

/-! ### Output wave -/

/-- R193, R191: the whole rule of SETOW. Mode numbers and five of the bytes are the spec's own decisions D12 and D13. -/
def Obligations.SetowFollowsItsRule : Prop :=
  ∀ (mode : Byte) (s : State),
    (s.life = .uninit → exec (.setow mode) s = .refused .notReady) ∧
    (s.life = .ready → 6 ≤ mode.toNat → exec (.setow mode) s = .next (ended .setow .invalidParameter [] s)) ∧
    (∀ c, s.life = .ready → 2 ≤ s.binding.cap → controlRow mode = some c → WritesAs (.setow mode) s 0x07 [c])

/-- R194: SETOW of a mode 0 to 5 in a READY engine issues one Send of `[0x07, c]` and no other call, where `c` is a function of the mode alone and bits
6:5 and 3:2 of it are zero, whatever the chip holds and the host answers, and it runs for every host that keeps the port's contract. The bytes and the
reserved zeros are the spec's own decisions D12 and D13. -/
def Obligations.SetowOverwritesWholeControlByte : Prop :=
  ∀ (mode c : Byte) (s : State), s.life = .ready → 2 ≤ s.binding.cap → controlRow mode = some c →
    c &&& 0x6C = 0 ∧
    (∀ t, exec (.setow mode) s = .next t → t.calls = s.calls ++ [.send s.binding.slaveAddr [0x07, c]]) ∧
    ((∀ bytes rest, s.inputs = .answer (.ok bytes) :: rest → bytes = []) → ∃ t, exec (.setow mode) s = .next t)

/-! ### Planner -/

/-- R131, R132, R134: PWRITE with every frame answered OK issues exactly the frames of the closed form, `ceil(N / (CAP - 1))` of them, each address
the previous one plus the previous chunk's length, mod 256, for every start and length, and a Write inside the map lands on the chip. Greedy chunks and the
wrap are the spec's own decisions D16 and D20. -/
def Obligations.PwriteIssuesThePlannedFrames : Prop :=
  ∀ (start : Byte) (data : List Byte) (s : State) (rest : List Input),
    s.life = .ready → 2 ≤ s.binding.cap → data.length ≤ 255 →
    s.inputs = oks (frameCount s.binding.cap data.length) rest →
    ∃ t, exec (.pwrite start data) s = .next t ∧ WriteDone s .pwrite start data rest t

/-- R133: at the first failed Send `j` exactly `j + 1` Sends were issued, the earlier frames are on the chip, the failed one left any mix of old and new
bytes, nothing else changed, and the answer is TransportFailure. -/
def Obligations.FailedSendStopsTheWrite : Prop :=
  ∀ (start : Byte) (data : List Byte) (s : State) (j : Nat) (rest : List Input),
    s.life = .ready → 2 ≤ s.binding.cap → data.length ≤ 255 → j < frameCount s.binding.cap data.length →
    s.inputs = oks j (.answer .fail :: rest) →
    ∃ t, exec (.pwrite start data) s = .next t ∧ WriteStopped s .pwrite start data j rest t

/-- R135: an empty PWRITE issues no Send, whatever the host would answer, and is a Success with `PTR = start`, `CUR = N = 0`, and nothing else
written but `OP` (log 18), `PHASE`, `RESP` and the outstanding call. The spec's own decision D17. -/
def Obligations.EmptyPwriteIssuesNoSend : Prop :=
  ∀ (start : Byte) (s : State), s.life = .ready →
    exec (.pwrite start []) s = .next { ended .pwrite .success [] s with ptr := start, cur := 0, n := 0 }

/-- R136, R137, R138: the whole rule of PREAD, and PWRITE's refusal: any start, any count, bytes unchanged, no Receive after a failed positioning
Send. The spec's own decisions D6, D18 and D19. -/
def Obligations.PreadFollowsItsRule : Prop :=
  ∀ (start count : Byte) (data : List Byte) (s : State),
    (s.life = .uninit → exec (.pread start count) s = .refused .notReady ∧ exec (.pwrite start data) s = .refused .notReady) ∧
    (s.life = .ready → ReadsAs (.pread start count) s start count id)

/-- R93: a Read is exactly the positioning frame Send(SLAVE_ADDR, [start]) and then Receive(SLAVE_ADDR, count), each issued once the call before it is
answered: for GETDT, RDRAM and PREAD in a READY engine whose host answers one call at a time. -/
def Obligations.ReadIsOneSendThenOneReceive : Prop :=
  ∀ (i : Instr) (start count : Byte) (s : State), s.life = .ready → StartsRead i start count → NoAnswerNext s.inputs →
    ∃ t, exec i s = .next t ∧ t.phase = .busy ∧ t.calls = s.calls ++ [.send s.binding.slaveAddr [start]] ∧
      ∀ later, NoAnswerNext later →
        ∃ u, step { t with inputs := .answer (.ok []) :: later } = .next u ∧ u.phase = .busy ∧
          u.calls = t.calls ++ [.receive s.binding.slaveAddr count] ∧
          ∀ bytes last, bytes.length = count.toNat →
            ∃ v, step { u with inputs := .answer (.ok bytes) :: last } = .next v ∧ v.phase = .idle ∧ v.calls = u.calls

/-- R33, R136: a positioning Send answered OK is followed by the Receive; at a mapped register it leaves the chip's internal pointer there and nothing
else changes; at an address 0x40 to 0xFF only the pointer, which is then a free value, and the count of free values may change besides. That free value,
and the pointer after every other call, are log 13. -/
def Obligations.PositioningSendSetsTheChipPointer : Prop :=
  ∀ (s : State) (start count : Byte) (rest : List Input), s.phase = .busy → s.pending = some (.position start count) →
    s.inputs = .answer (.ok []) :: rest → NoAnswerNext rest →
    ∃ t, step s = .next t ∧
      t = { s with
        calls := s.calls ++ [.receive s.binding.slaveAddr count], pending := some (.receive count), inputs := rest,
        chipPtr := t.chipPtr, draws := t.draws } ∧
      (start.toNat ≤ 0x3F → t.chipPtr = start ∧ t.draws = s.draws)

/-- R8: every `CAP >= 256` behaves as `CAP = 256`: for every well-formed request, whatever the host answers. The spec's own decision D23. -/
def Obligations.CapAbove256BehavesAs256 : Prop :=
  ∀ (i : Instr) (s : State) (c : Nat), i.wf = true → 256 ≤ c →
    exec i (withCap c s) = mapNext (withCap c) (exec i (withCap 256 s))

/-- R130, R91, R92: every call that a request issues is a Send of 1 to `CAP` bytes to `SLAVE_ADDR`, a Receive from `SLAVE_ADDR`, or a hook, appended to
the earlier calls, whatever the host answers. -/
def Obligations.IssuedFramesFitTheCapacity : Prop :=
  ∀ (i : Instr) (s t : State), 2 ≤ s.binding.cap → exec i s = .next t →
    ∃ new, t.calls = s.calls ++ new ∧ ∀ c ∈ new,
      (∃ frame, c = .send s.binding.slaveAddr frame ∧ 1 ≤ frame.length ∧ frame.length ≤ s.binding.cap) ∨
      (∃ count, c = .receive s.binding.slaveAddr count) ∨ c = .initHook ∨ c = .deinitHook

/-! ### Frames -/

/-- R138, R155, R172: what the reading requests leave alone, whatever the host answers: sequencer, lifecycle, configuration, port and every chip
register. -/
def Obligations.ReadingRequestsFrame : Prop :=
  ∀ (i : Instr) (s t : State), (i = .getdt ∨ (∃ o n, i = .rdram o n) ∨ ∃ a n, i = .pread a n) → exec i s = .next t →
    t.ptr = s.ptr ∧ t.cur = s.cur ∧ t.n = s.n ∧ t.life = s.life ∧ t.binding = s.binding ∧ t.port = s.port ∧ t.chip = s.chip

/-- R134, R153, R171, R193, R51: what the writing requests leave alone, whatever the host answers: lifecycle, configuration, port, and every chip register
outside their span. PWRITE past register 0x3F is not part of the chip clause: the chip is then unknown, log 12. -/
def Obligations.WritingRequestsFrame : Prop :=
  ∀ (i : Instr) (start : Byte) (len : Nat) (s t : State),
    ((∃ dt halt, i = .setdt dt halt ∧ start = 0 ∧ len = 7) ∨
     (∃ offset data, i = .wrram offset data ∧ start = offset + 8 ∧ len = data.length) ∨
     (∃ mode, i = .setow mode ∧ start = 7 ∧ len = 1) ∨
     (∃ data, i = .pwrite start data ∧ len = data.length ∧ len ≤ 255)) →
    exec i s = .next t →
    t.life = s.life ∧ t.binding = s.binding ∧ t.port = s.port ∧ t.op = i.opcode.byte ∧
    (start.toNat + len ≤ 64 → ∀ a, (a < start.toNat ∨ start.toNat + len ≤ a) → t.chip.read a = s.chip.read a)

/-! ### Endings, ordering and the ports -/

/-- R240: a request leaves the engine either IDLE, with no call outstanding and a response written that has a payload on Success only, or BUSY, with a call
outstanding and no response written. -/
def Obligations.RequestEndsOrWaits : Prop :=
  ∀ (i : Instr) (s t : State), exec i s = .next t →
    (t.phase = .idle ∧ t.pending = none ∧ ∃ r, t.resp = some r ∧ (r.code ≠ .success → r.payload = [])) ∨
    (t.phase = .busy ∧ t.pending.isSome = true ∧ t.resp = s.resp)

/-- R243: a request that ends with InvalidParameter has issued no call, taken no answer and written no chip register; and SETDT with hour 24 in a READY
engine ends so. -/
def Obligations.InvalidParameterTouchesNoBus : Prop :=
  (∀ (i : Instr) (s t : State) (p : List Byte), exec i s = .next t → t.phase = .idle →
    t.resp = some ⟨.invalidParameter, p⟩ → p = [] ∧ t.calls = s.calls ∧ t.inputs = s.inputs ∧ t.chip = s.chip) ∧
  (∀ (dt : DateTime) (halt : Bool) (s : State), s.life = .ready → dt.hour = 24 →
    ∃ t, exec (.setdt dt halt) s = .next t ∧ t.phase = .idle ∧ t.resp = some ⟨.invalidParameter, []⟩ ∧ t.calls = s.calls)

/-- R25, R131, R136, R220, R222, R276: a request that begins a Write, a Read or a hook call, with no answer standing next, issues exactly that first call
and is BUSY with it, everything else as before; and a BUSY engine to which the host makes no move stays as it is for ever (log 3). What the planner still
needs stands in `pending`, log 19. -/
def Obligations.UnansweredCallLeavesBusy : Prop :=
  (∀ s : State, NoAnswerNext s.inputs →
    (∀ i start data, s.life = .ready → 2 ≤ s.binding.cap → StartsWrite i start data →
      exec i s = .next { s with
        phase := .busy, op := i.opcode.byte, ptr := start, cur := 0, n := BitVec.ofNat 8 data.length, pending := some (.write data),
        calls := s.calls ++ [.send s.binding.slaveAddr (planFrame s.binding.cap start data 0)] }) ∧
    (∀ i start count, s.life = .ready → StartsRead i start count →
      exec i s = .next { s with
        phase := .busy, op := i.opcode.byte, pending := some (.position start count),
        calls := s.calls ++ [.send s.binding.slaveAddr [start]] }) ∧
    (s.life = .uninit → s.binding.complete → s.binding.initHook = true →
      exec .init s = .next { s with phase := .busy, op := 0x01, pending := some .initHook, calls := s.calls ++ [.initHook] }) ∧
    (s.life = .ready → s.binding.deinitHook = true →
      exec .deinit s = .next { s with phase := .busy, op := 0x02, pending := some .deinitHook, calls := s.calls ++ [.deinitHook] })) ∧
  (∀ s : State, s.phase = .busy → s.inputs = [] → step s = .next s)

/-- R61, R276: calls are never pipelined: in a step, no more calls are issued than answers taken, plus the first call of the request that an IDLE engine
accepts. -/
def Obligations.NoCallBeforeThePreviousAnswer : Prop :=
  ∀ s t : State, step s = .next t →
    (∃ new, t.calls = s.calls ++ new) ∧
    t.calls.length + answerCount t.inputs ≤
      s.calls.length + answerCount s.inputs + (match s.phase with | .idle => 1 | .busy => 0)

/-- R275: while BUSY the port holds a request, and the next step changes nothing else. The spec's own decision D28; that it is held behind every request
held before it is log 7. -/
def Obligations.BusyPortHoldsTheRequest : Prop :=
  ∀ (s : State) (bytes : List Byte) (rest : List Input), s.phase = .busy → s.inputs = .request bytes :: rest →
    step s = .next { s with port := s.port ++ [bytes], inputs := rest }

/-- R223, R27: the host binds the configuration in UNINIT and IDLE, and nothing else of the engine changes; otherwise a binding has no move. The spec's own
decision D7. That with another slave address nothing is known of the chip any more is log 23; that a binding waits for held requests is log 7. -/
def Obligations.BindingOnlyWhileUninitAndIdle : Prop :=
  ∀ (s : State) (b : Binding) (rest : List Input), s.inputs = .bind b :: rest →
    (s.phase = .idle → s.port = [] → s.life = .uninit →
      (b.slaveAddr = s.binding.slaveAddr → step s = .next { s with binding := b, inputs := rest }) ∧
      (b.slaveAddr ≠ s.binding.slaveAddr → ∃ t, step s = .next t ∧
        t = { s with binding := b, inputs := rest, chip := [], chipPtr := t.chipPtr, draws := t.draws })) ∧
    (s.phase = .idle → s.port = [] → s.life = .ready → step s = .fault .bindingFixed) ∧
    (s.phase = .busy → step s = .fault .bindingFixed)

/-- R92, R25, U16: an OK to a Receive of `count` with another number of bytes, an OK with any byte to a Send or a hook, and an answer with no call
outstanding, have no move. Logs 4 and 5. -/
def Obligations.AnswersOutsideTheContractStop : Prop :=
  (∀ (s : State) (a : Answer) (rest : List Input), s.inputs = .answer a :: rest → s.phase = .idle → s.port = [] →
    step s = .fault .answerWithoutCall) ∧
  (∀ (s : State) (bytes : List Byte) (rest : List Input), s.phase = .busy → s.inputs = .answer (.ok bytes) :: rest →
    (∀ count, s.pending = some (.receive count) → bytes.length ≠ count.toNat → step s = .fault .answerLength) ∧
    (∀ p, s.pending = some p → (∀ count, p ≠ .receive count) → bytes ≠ [] → step s = .fault .answerLength))

/-- D1, D24, log 2: whether the host's answers stand ready together or come one step at a time makes no difference. When a request is taken, the answers
that stand next lead where a wait and a later step on them lead; and a BUSY engine's step on an answer with further moves behind it is the step on that
answer alone, then, where another answer follows, a step on the rest. -/
def Obligations.AnswersAtOnceOrLaterAgree : Prop :=
  (∀ (i : Instr) (s t : State) (a : Answer) (rest : List Input), exec i { s with inputs := [] } = .next t →
    (t.phase = .busy → exec i { s with inputs := .answer a :: rest } = step { t with inputs := .answer a :: rest }) ∧
    (t.phase = .idle → exec i { s with inputs := .answer a :: rest } = .next { t with inputs := .answer a :: rest })) ∧
  (∀ (s : State) (a : Answer) (moves : List Input), s.Inv → s.phase = .busy →
    (∀ f, step { s with inputs := [.answer a] } = .fault f → step { s with inputs := .answer a :: moves } = .fault f) ∧
    (∀ t, step { s with inputs := [.answer a] } = .next t →
      (t.phase = .busy → ∀ b rest, moves = .answer b :: rest →
        step { s with inputs := .answer a :: moves } = step { t with inputs := moves }) ∧
      (t.phase = .idle ∨ NoAnswerNext moves → step { s with inputs := .answer a :: moves } = .next { t with inputs := moves })))

/-- R29, R33: no request and no step depends on the chip's registers or pointer: two states that differ in them, and in the count of free values, only
give the same outcome, but for them. The engine learns of the chip through answers alone. A step on the reset input is left out, because it draws free
values for OP, PTR, CUR and N by that count (log 15). -/
def Obligations.EngineKeepsNoCopyOfTheChip : Prop :=
  ∀ s t : State, withoutChip s = withoutChip t →
    (∀ i, mapNext withoutChip (exec i s) = mapNext withoutChip (exec i t)) ∧
    ((∀ rest, s.inputs ≠ .reset :: rest) → mapNext withoutChip (step s) = mapNext withoutChip (step t))
end

