-- ==== Sys2Proof/Laws/Assembler.lean ====
section
/-! SUPPORT. How the assembler reads text: words, commas, numerals, data lists. -/

namespace Sys2Proof.Machine.Assembler

/-- A character that ends no word. -/
abbrev plain (c : Char) : Prop :=
  c ≠ ';' ∧ c ≠ ' ' ∧ c ≠ '\t' ∧ c ≠ ',' ∧ c ≠ '#' ∧ c ≠ openBrace ∧ c ≠ closeBrace

/-- A run of plain characters is collected. -/
theorem lex_plain {u : List Char} (hu : ∀ c ∈ u, plain c) (cs w : List Char) :
    lex (u ++ cs) w = lex cs (u.reverse ++ w) := by
  induction u generalizing w with
  | nil => rfl
  | cons c u ih =>
    obtain ⟨h1, h2, h3, h4, h5, h6, h7⟩ := hu c (by simp)
    rw [List.cons_append, lex]
    simp only [h1, h2, h3, h4, h5, h6, h7, decide_false, Bool.or_false, if_false, Bool.false_eq_true]
    rw [ih (fun c hc => hu c (by simp [hc]))]
    simp

theorem flush_reverse {u : List Char} (hu : u ≠ []) (ts : List Token) : flush (u.reverse ++ []) ts = .word u :: ts := by
  simp [flush, hu]

/-- A word ahead of a comma, a blank, a closing brace, the end of the line. -/
theorem lex_word_comma {u : List Char} (hu : ∀ c ∈ u, plain c) (hn : u ≠ []) (cs : List Char) :
    lex (u ++ ',' :: cs) [] = .word u :: .comma :: lex cs [] := by
  rw [lex_plain hu, ← flush_reverse hn]; rfl

theorem lex_word_blank {u : List Char} (hu : ∀ c ∈ u, plain c) (hn : u ≠ []) (cs : List Char) :
    lex (u ++ ' ' :: cs) [] = .word u :: lex cs [] := by
  rw [lex_plain hu, ← flush_reverse hn]; rfl

theorem lex_word_closing {u : List Char} (hu : ∀ c ∈ u, plain c) (hn : u ≠ []) (cs : List Char) :
    lex (u ++ closeBrace :: cs) [] = .word u :: .closing :: lex cs [] := by
  rw [lex_plain hu, ← flush_reverse hn]; rfl

theorem lex_word {u : List Char} (hu : ∀ c ∈ u, plain c) (hn : u ≠ []) : lex u [] = [.word u] := by
  have := lex_plain hu [] []
  rw [List.append_nil] at this
  rw [this, ← flush_reverse hn]; rfl

theorem lex_blank (cs : List Char) : lex (' ' :: cs) [] = lex cs [] := rfl
theorem lex_hash (cs : List Char) : lex ('#' :: cs) [] = .hash :: lex cs [] := rfl
theorem lex_opening (cs : List Char) : lex (openBrace :: cs) [] = .opening :: lex cs [] := rfl

/-- A comment changes nothing (R96). -/
theorem lex_comment (cs comment w : List Char) : lex (cs ++ ';' :: comment) w = lex cs w := by
  induction cs generalizing w with
  | nil => rfl
  | cons c cs ih => simp only [List.cons_append, lex, ih]

theorem assemble_comment (cs comment : List Char) : assemble (cs ++ ';' :: comment) = assemble cs := by
  simp only [assemble, line, lex_comment]

/-! ### Numerals -/

theorem byte_decimal : ∀ v : Byte, byte (Nat.toDigits 10 v.toNat) = some v := by decide +kernel
theorem byte_hexadecimal : ∀ v : Byte, byte ('0' :: 'x' :: Nat.toDigits 16 v.toNat) = some v := by decide +kernel
theorem decimal_plain : ∀ v : Byte, (Nat.toDigits 10 v.toNat).all (fun c => decide (plain c)) = true := by decide +kernel
theorem hexadecimal_plain : ∀ v : Byte, (Nat.toDigits 16 v.toNat).all (fun c => decide (plain c)) = true := by decide +kernel
theorem decimal_nonempty : ∀ v : Byte, Nat.toDigits 10 v.toNat ≠ [] := by decide +kernel

/-- A numeral reads as its byte. -/
theorem Numeral.byte {u : List Char} {v : Byte} (h : Numeral u v) : Assembler.byte u = some v := by
  rcases h with rfl | rfl
  · exact byte_decimal v
  · exact byte_hexadecimal v

/-- A word: characters that end no word, at least one. -/
def IsWord (u : List Char) : Prop := u ≠ [] ∧ ∀ c ∈ u, plain c

/-- A numeral is a word. -/
theorem Numeral.isWord {u : List Char} {v : Byte} (h : Numeral u v) : IsWord u := by
  rcases h with rfl | rfl
  · exact ⟨decimal_nonempty v, fun c hc => of_decide_eq_true (List.all_eq_true.mp (decimal_plain v) c hc)⟩
  · refine ⟨by simp, fun c hc => ?_⟩
    rcases List.mem_cons.mp hc with rfl | hc
    · decide
    rcases List.mem_cons.mp hc with rfl | hc
    · decide
    · exact of_decide_eq_true (List.all_eq_true.mp (hexadecimal_plain v) c hc)

/-- Numerals of a list of bytes are words. -/
theorem numerals_areWords {us : List (List Char)} {bs : List Byte} (h : List.Forall₂ Numeral us bs) : ∀ u ∈ us, IsWord u := by
  induction h with
  | nil => simp
  | cons h1 _ ih =>
    intro u hu
    rcases List.mem_cons.mp hu with rfl | hu
    · exact h1.isWord
    · exact ih u hu

theorem haltWord_isWord : IsWord haltWord := by simp [IsWord, haltWord, plain, openBrace, closeBrace]

theorem mnemonic_isWord (op : Opcode) : IsWord (mnemonic op) := by
  cases op <;> simp [IsWord, mnemonic, plain, openBrace, closeBrace]

/-! ### Operands separated by commas -/

/-- The tokens of words separated by commas. -/
def commaTokens : List (List Char) → List Token
  | []           => []
  | [u]          => [.word u]
  | u :: v :: us => .word u :: .comma :: commaTokens (v :: us)

theorem lex_commaText {us : List (List Char)} (h : ∀ u ∈ us, IsWord u) : lex (commaText us) [] = commaTokens us := by
  induction us with
  | nil => rfl
  | cons u us ih =>
    have hu := h u (by simp)
    cases us with
    | nil => exact lex_word hu.2 hu.1
    | cons v us =>
      rw [commaText, lex_word_comma hu.2 hu.1, lex_blank, ih (fun w hw => h w (by simp [hw]))]; rfl

theorem lex_commaText_closing {us : List (List Char)} (h : ∀ u ∈ us, IsWord u) (hn : us ≠ []) :
    lex (commaText us ++ [closeBrace]) [] = commaTokens us ++ [.closing] := by
  induction us with
  | nil => exact absurd rfl hn
  | cons u us ih =>
    have hu := h u (by simp)
    cases us with
    | nil => exact lex_word_closing hu.2 hu.1 []
    | cons v us =>
      rw [commaText, List.append_assoc, List.cons_append, lex_word_comma hu.2 hu.1, List.cons_append, lex_blank,
        ih (fun w hw => h w (by simp [hw])) (by simp)]
      rfl

theorem operandsFrom_commaTokens {us : List (List Char)} (hn : us ≠ []) :
    operandsFrom (commaTokens us) = some (us.map .word) := by
  induction us with
  | nil => exact absurd rfl hn
  | cons u us ih =>
    cases us with
    | nil => rfl
    | cons v us => rw [commaTokens, operandsFrom, ih (by simp)]; rfl

theorem items_commaTokens {us : List (List Char)} {bs : List Byte} (h : List.Forall₂ Numeral us bs) (hn : us ≠ []) :
    items (commaTokens us ++ [.closing]) = some (bs, []) := by
  induction h with
  | nil => exact absurd rfl hn
  | @cons u b us bs hu hus ih =>
    cases hus with
    | nil => simp [commaTokens, items, hu.byte]
    | cons hv hvs =>
      have := ih (by simp)
      simp only [commaTokens, List.cons_append, items, hu.byte, this]

theorem dataList_commaTokens {us : List (List Char)} {bs : List Byte} (h : List.Forall₂ Numeral us bs) (hn : us ≠ []) :
    dataList (commaTokens us ++ [.closing]) = some bs := by
  have hi := items_commaTokens h hn
  match us, hn with
  | [u], _ => simp only [commaTokens, List.cons_append, List.nil_append, dataList] at hi ⊢; rw [hi]
  | u :: v :: us, _ => simp only [commaTokens, List.cons_append, dataList] at hi ⊢; rw [hi]

/-! ### Whole lines -/

theorem find_mnemonic (op : Opcode) : Opcode.all.find? (fun o => mnemonic o == mnemonic op) = some op := by
  cases op <;> decide

/-- A line whose operands are words. -/
theorem line_words {op : Opcode} {us : List (List Char)} (h : ∀ u ∈ us, IsWord u) (hn : us ≠ []) :
    line (rowText (mnemonic op) us) = request op (us.map .word) := by
  have hm := mnemonic_isWord op
  have hl : lex (rowText (mnemonic op) us) [] = .word (mnemonic op) :: commaTokens us := by
    rw [rowText, lex_word_blank hm.2 hm.1, lex_commaText h]
  have ho : operands (commaTokens us) = some (us.map .word) := by
    rw [← operandsFrom_commaTokens hn]
    match us, hn with
    | [u], _ => rfl
    | u :: v :: us, _ => rfl
  simp only [line, hl, find_mnemonic, ho]

/-- The bytes of a line whose operands are words. -/
theorem assemble_words {op : Opcode} {us : List (List Char)} {i : Instr} (h : ∀ u ∈ us, IsWord u) (hn : us ≠ [])
    (hr : request op (us.map .word) = some i) : assemble (rowText (mnemonic op) us) = some (encode i) := by
  rw [assemble, line_words h hn, hr]; rfl

/-- A line without operands. -/
theorem line_bare (op : Opcode) : line (mnemonic op) = request op [] := by
  have hm := mnemonic_isWord op
  simp only [line, lex_word hm.2 hm.1, find_mnemonic, operands]

/-- A line with a raw value `#m`. -/
theorem line_raw {op : Opcode} {u : List Char} {b : Byte} (h : Numeral u b) :
    line (rowText (mnemonic op) ['#' :: u]) = request op [.raw b] := by
  have hm := mnemonic_isWord op
  have hl : lex (rowText (mnemonic op) ['#' :: u]) [] = [.word (mnemonic op), .hash, .word u] := by
    rw [rowText, lex_word_blank hm.2 hm.1]
    show _ :: lex ('#' :: u) [] = _
    rw [lex_hash, lex_word h.isWord.2 h.isWord.1]
  simp only [line, hl, find_mnemonic, operands, operandsFrom, h.byte, Option.map_some]

/-- A line with two words and a data list. -/
theorem line_data {op : Opcode} {u v : List Char} {ds : List (List Char)} {bs : List Byte} (hu : IsWord u) (hv : IsWord v)
    (h : List.Forall₂ Numeral ds bs) (hn : ds ≠ []) :
    line (rowText (mnemonic op) [u, v, listText ds]) = request op [.word u, .word v, .list bs] := by
  have hm := mnemonic_isWord op
  have hd := numerals_areWords h
  have hl : lex (rowText (mnemonic op) [u, v, listText ds]) []
      = .word (mnemonic op) :: .word u :: .comma :: .word v :: .comma :: .opening :: (commaTokens ds ++ [.closing]) := by
    rw [rowText, lex_word_blank hm.2 hm.1, commaText, lex_word_comma hu.2 hu.1, lex_blank, commaText,
      lex_word_comma hv.2 hv.1, lex_blank, commaText, listText, List.cons_append, lex_opening, lex_commaText_closing hd hn]
  simp only [line, hl, find_mnemonic, operands, operandsFrom, dataList_commaTokens h hn, Option.map_some]

end Sys2Proof.Machine.Assembler
end

