-- ==== Sys2Proof/Laws/Decode.lean ====
section
/-! SUPPORT. The tables of the decoder and the encoder, read both ways. -/

namespace Sys2Proof

/-- Every opcode byte selects its own operation (R81). -/
theorem ofByte_byte (o : Opcode) : Opcode.ofByte o.byte = some o := by cases o <;> rfl

/-- The operation a byte selects is the one of that row (R81). -/
theorem byte_ofByte {b : Byte} {o : Opcode} (h : Opcode.ofByte b = some o) : o.byte = b := by
  simpa using List.find?_some h

/-- The flags byte of `halt` decodes to `halt` (R86). -/
theorem decodeFlags_encodeFlags (halt : Bool) : decodeFlags (encodeFlags halt) = some halt := by cases halt <;> rfl

set_option maxRecDepth 10000 in
/-- A flags byte has no reserved bit set exactly when it is 0 or 1 (R86). -/
theorem flags_reserved_clear : ∀ fl : Byte, fl &&& 0xFE = 0 ↔ fl.toNat ≤ 1 := by decide

end Sys2Proof
end

