-- ==== Sys2Proof/Laws/State.lean ====
section
/-! SUPPORT. One lemma per field per update of State, true by rfl wherever the update has no cases, so that no later proof unfolds a record update. -/

namespace Sys2Proof.Machine.State

/-! ### accept -/

@[simp] theorem accept_binding (o : Opcode) (s : State) : (s.accept o).binding = s.binding := rfl
@[simp] theorem accept_life (o : Opcode) (s : State) : (s.accept o).life = s.life := rfl
@[simp] theorem accept_phase (o : Opcode) (s : State) : (s.accept o).phase = .busy := rfl
@[simp] theorem accept_op (o : Opcode) (s : State) : (s.accept o).op = o.byte := rfl
@[simp] theorem accept_ptr (o : Opcode) (s : State) : (s.accept o).ptr = s.ptr := rfl
@[simp] theorem accept_cur (o : Opcode) (s : State) : (s.accept o).cur = s.cur := rfl
@[simp] theorem accept_n (o : Opcode) (s : State) : (s.accept o).n = s.n := rfl
@[simp] theorem accept_resp (o : Opcode) (s : State) : (s.accept o).resp = s.resp := rfl
@[simp] theorem accept_pending (o : Opcode) (s : State) : (s.accept o).pending = none := rfl
@[simp] theorem accept_port (o : Opcode) (s : State) : (s.accept o).port = s.port := rfl
@[simp] theorem accept_inputs (o : Opcode) (s : State) : (s.accept o).inputs = s.inputs := rfl
@[simp] theorem accept_calls (o : Opcode) (s : State) : (s.accept o).calls = s.calls := rfl
@[simp] theorem accept_chip (o : Opcode) (s : State) : (s.accept o).chip = s.chip := rfl
@[simp] theorem accept_chipPtr (o : Opcode) (s : State) : (s.accept o).chipPtr = s.chipPtr := rfl
@[simp] theorem accept_draws (o : Opcode) (s : State) : (s.accept o).draws = s.draws := rfl

/-! ### finish -/

@[simp] theorem finish_binding (c : ResultCode) (p : List Byte) (s : State) : (s.finish c p).binding = s.binding := rfl
@[simp] theorem finish_life (c : ResultCode) (p : List Byte) (s : State) : (s.finish c p).life = s.life := rfl
@[simp] theorem finish_phase (c : ResultCode) (p : List Byte) (s : State) : (s.finish c p).phase = .idle := rfl
@[simp] theorem finish_op (c : ResultCode) (p : List Byte) (s : State) : (s.finish c p).op = s.op := rfl
@[simp] theorem finish_ptr (c : ResultCode) (p : List Byte) (s : State) : (s.finish c p).ptr = s.ptr := rfl
@[simp] theorem finish_cur (c : ResultCode) (p : List Byte) (s : State) : (s.finish c p).cur = s.cur := rfl
@[simp] theorem finish_n (c : ResultCode) (p : List Byte) (s : State) : (s.finish c p).n = s.n := rfl
@[simp] theorem finish_resp (c : ResultCode) (p : List Byte) (s : State) : (s.finish c p).resp = some ⟨c, p⟩ := rfl
@[simp] theorem finish_pending (c : ResultCode) (p : List Byte) (s : State) : (s.finish c p).pending = none := rfl
@[simp] theorem finish_port (c : ResultCode) (p : List Byte) (s : State) : (s.finish c p).port = s.port := rfl
@[simp] theorem finish_inputs (c : ResultCode) (p : List Byte) (s : State) : (s.finish c p).inputs = s.inputs := rfl
@[simp] theorem finish_calls (c : ResultCode) (p : List Byte) (s : State) : (s.finish c p).calls = s.calls := rfl
@[simp] theorem finish_chip (c : ResultCode) (p : List Byte) (s : State) : (s.finish c p).chip = s.chip := rfl
@[simp] theorem finish_chipPtr (c : ResultCode) (p : List Byte) (s : State) : (s.finish c p).chipPtr = s.chipPtr := rfl
@[simp] theorem finish_draws (c : ResultCode) (p : List Byte) (s : State) : (s.finish c p).draws = s.draws := rfl

/-! ### succeed -/

@[simp] theorem succeed_binding (p : List Byte) (s : State) : (s.succeed p).binding = s.binding := rfl
@[simp] theorem succeed_life (p : List Byte) (s : State) : (s.succeed p).life = s.life := rfl
@[simp] theorem succeed_phase (p : List Byte) (s : State) : (s.succeed p).phase = .idle := rfl
@[simp] theorem succeed_op (p : List Byte) (s : State) : (s.succeed p).op = s.op := rfl
@[simp] theorem succeed_ptr (p : List Byte) (s : State) : (s.succeed p).ptr = s.ptr := rfl
@[simp] theorem succeed_cur (p : List Byte) (s : State) : (s.succeed p).cur = s.cur := rfl
@[simp] theorem succeed_n (p : List Byte) (s : State) : (s.succeed p).n = s.n := rfl
@[simp] theorem succeed_resp (p : List Byte) (s : State) : (s.succeed p).resp = some ⟨.success, p⟩ := rfl
@[simp] theorem succeed_pending (p : List Byte) (s : State) : (s.succeed p).pending = none := rfl
@[simp] theorem succeed_port (p : List Byte) (s : State) : (s.succeed p).port = s.port := rfl
@[simp] theorem succeed_inputs (p : List Byte) (s : State) : (s.succeed p).inputs = s.inputs := rfl
@[simp] theorem succeed_calls (p : List Byte) (s : State) : (s.succeed p).calls = s.calls := rfl
@[simp] theorem succeed_chip (p : List Byte) (s : State) : (s.succeed p).chip = s.chip := rfl
@[simp] theorem succeed_chipPtr (p : List Byte) (s : State) : (s.succeed p).chipPtr = s.chipPtr := rfl
@[simp] theorem succeed_draws (p : List Byte) (s : State) : (s.succeed p).draws = s.draws := rfl

/-! ### raise -/

@[simp] theorem raise_binding (c : ResultCode) (s : State) : (s.raise c).binding = s.binding := rfl
@[simp] theorem raise_life (c : ResultCode) (s : State) : (s.raise c).life = s.life := rfl
@[simp] theorem raise_phase (c : ResultCode) (s : State) : (s.raise c).phase = .idle := rfl
@[simp] theorem raise_op (c : ResultCode) (s : State) : (s.raise c).op = s.op := rfl
@[simp] theorem raise_ptr (c : ResultCode) (s : State) : (s.raise c).ptr = s.ptr := rfl
@[simp] theorem raise_cur (c : ResultCode) (s : State) : (s.raise c).cur = s.cur := rfl
@[simp] theorem raise_n (c : ResultCode) (s : State) : (s.raise c).n = s.n := rfl
@[simp] theorem raise_resp (c : ResultCode) (s : State) : (s.raise c).resp = some ⟨c, []⟩ := rfl
@[simp] theorem raise_pending (c : ResultCode) (s : State) : (s.raise c).pending = none := rfl
@[simp] theorem raise_port (c : ResultCode) (s : State) : (s.raise c).port = s.port := rfl
@[simp] theorem raise_inputs (c : ResultCode) (s : State) : (s.raise c).inputs = s.inputs := rfl
@[simp] theorem raise_calls (c : ResultCode) (s : State) : (s.raise c).calls = s.calls := rfl
@[simp] theorem raise_chip (c : ResultCode) (s : State) : (s.raise c).chip = s.chip := rfl
@[simp] theorem raise_chipPtr (c : ResultCode) (s : State) : (s.raise c).chipPtr = s.chipPtr := rfl
@[simp] theorem raise_draws (c : ResultCode) (s : State) : (s.raise c).draws = s.draws := rfl

/-! ### issue -/

@[simp] theorem issue_binding (c : Call) (p : Pending) (s : State) : (s.issue c p).binding = s.binding := rfl
@[simp] theorem issue_life (c : Call) (p : Pending) (s : State) : (s.issue c p).life = s.life := rfl
@[simp] theorem issue_phase (c : Call) (p : Pending) (s : State) : (s.issue c p).phase = s.phase := rfl
@[simp] theorem issue_op (c : Call) (p : Pending) (s : State) : (s.issue c p).op = s.op := rfl
@[simp] theorem issue_ptr (c : Call) (p : Pending) (s : State) : (s.issue c p).ptr = s.ptr := rfl
@[simp] theorem issue_cur (c : Call) (p : Pending) (s : State) : (s.issue c p).cur = s.cur := rfl
@[simp] theorem issue_n (c : Call) (p : Pending) (s : State) : (s.issue c p).n = s.n := rfl
@[simp] theorem issue_resp (c : Call) (p : Pending) (s : State) : (s.issue c p).resp = s.resp := rfl
@[simp] theorem issue_pending (c : Call) (p : Pending) (s : State) : (s.issue c p).pending = some p := rfl
@[simp] theorem issue_port (c : Call) (p : Pending) (s : State) : (s.issue c p).port = s.port := rfl
@[simp] theorem issue_inputs (c : Call) (p : Pending) (s : State) : (s.issue c p).inputs = s.inputs := rfl
@[simp] theorem issue_calls (c : Call) (p : Pending) (s : State) : (s.issue c p).calls = s.calls ++ [c] := rfl
@[simp] theorem issue_chip (c : Call) (p : Pending) (s : State) : (s.issue c p).chip = s.chip := rfl
@[simp] theorem issue_chipPtr (c : Call) (p : Pending) (s : State) : (s.issue c p).chipPtr = s.chipPtr := rfl
@[simp] theorem issue_draws (c : Call) (p : Pending) (s : State) : (s.issue c p).draws = s.draws := rfl

/-! ### advance -/

@[simp] theorem advance_binding (s : State) : (s.advance).binding = s.binding := rfl
@[simp] theorem advance_life (s : State) : (s.advance).life = s.life := rfl
@[simp] theorem advance_phase (s : State) : (s.advance).phase = s.phase := rfl
@[simp] theorem advance_op (s : State) : (s.advance).op = s.op := rfl
@[simp] theorem advance_ptr (s : State) : (s.advance).ptr = s.ptr + BitVec.ofNat 8 s.chunkLen := rfl
@[simp] theorem advance_cur (s : State) : (s.advance).cur = s.cur + BitVec.ofNat 8 s.chunkLen := rfl
@[simp] theorem advance_n (s : State) : (s.advance).n = s.n := rfl
@[simp] theorem advance_resp (s : State) : (s.advance).resp = s.resp := rfl
@[simp] theorem advance_pending (s : State) : (s.advance).pending = s.pending := rfl
@[simp] theorem advance_port (s : State) : (s.advance).port = s.port := rfl
@[simp] theorem advance_inputs (s : State) : (s.advance).inputs = s.inputs := rfl
@[simp] theorem advance_calls (s : State) : (s.advance).calls = s.calls := rfl
@[simp] theorem advance_chip (s : State) : (s.advance).chip = s.chip := rfl
@[simp] theorem advance_chipPtr (s : State) : (s.advance).chipPtr = s.chipPtr := rfl
@[simp] theorem advance_draws (s : State) : (s.advance).draws = s.draws := rfl

/-! ### losePointer -/

@[simp] theorem losePointer_binding (s : State) : (s.losePointer).binding = s.binding := rfl
@[simp] theorem losePointer_life (s : State) : (s.losePointer).life = s.life := rfl
@[simp] theorem losePointer_phase (s : State) : (s.losePointer).phase = s.phase := rfl
@[simp] theorem losePointer_op (s : State) : (s.losePointer).op = s.op := rfl
@[simp] theorem losePointer_ptr (s : State) : (s.losePointer).ptr = s.ptr := rfl
@[simp] theorem losePointer_cur (s : State) : (s.losePointer).cur = s.cur := rfl
@[simp] theorem losePointer_n (s : State) : (s.losePointer).n = s.n := rfl
@[simp] theorem losePointer_resp (s : State) : (s.losePointer).resp = s.resp := rfl
@[simp] theorem losePointer_pending (s : State) : (s.losePointer).pending = s.pending := rfl
@[simp] theorem losePointer_port (s : State) : (s.losePointer).port = s.port := rfl
@[simp] theorem losePointer_inputs (s : State) : (s.losePointer).inputs = s.inputs := rfl
@[simp] theorem losePointer_calls (s : State) : (s.losePointer).calls = s.calls := rfl
@[simp] theorem losePointer_chip (s : State) : (s.losePointer).chip = s.chip := rfl
@[simp] theorem losePointer_chipPtr (s : State) : (s.losePointer).chipPtr = Config.freeByte s.draws := rfl
@[simp] theorem losePointer_draws (s : State) : (s.losePointer).draws = s.draws + 1 := rfl

/-! ### chipFrameOk -/

@[simp] theorem chipFrameOk_binding (d : List Byte) (s : State) : (s.chipFrameOk d).binding = s.binding := rfl
@[simp] theorem chipFrameOk_life (d : List Byte) (s : State) : (s.chipFrameOk d).life = s.life := rfl
@[simp] theorem chipFrameOk_phase (d : List Byte) (s : State) : (s.chipFrameOk d).phase = s.phase := rfl
@[simp] theorem chipFrameOk_op (d : List Byte) (s : State) : (s.chipFrameOk d).op = s.op := rfl
@[simp] theorem chipFrameOk_ptr (d : List Byte) (s : State) : (s.chipFrameOk d).ptr = s.ptr := rfl
@[simp] theorem chipFrameOk_cur (d : List Byte) (s : State) : (s.chipFrameOk d).cur = s.cur := rfl
@[simp] theorem chipFrameOk_n (d : List Byte) (s : State) : (s.chipFrameOk d).n = s.n := rfl
@[simp] theorem chipFrameOk_resp (d : List Byte) (s : State) : (s.chipFrameOk d).resp = s.resp := rfl
@[simp] theorem chipFrameOk_pending (d : List Byte) (s : State) : (s.chipFrameOk d).pending = s.pending := rfl
@[simp] theorem chipFrameOk_port (d : List Byte) (s : State) : (s.chipFrameOk d).port = s.port := rfl
@[simp] theorem chipFrameOk_inputs (d : List Byte) (s : State) : (s.chipFrameOk d).inputs = s.inputs := rfl
@[simp] theorem chipFrameOk_calls (d : List Byte) (s : State) : (s.chipFrameOk d).calls = s.calls := rfl
@[simp] theorem chipFrameOk_chip (d : List Byte) (s : State) : (s.chipFrameOk d).chip = s.chip.frameOk s.ptr (s.chunk d) := rfl
@[simp] theorem chipFrameOk_chipPtr (d : List Byte) (s : State) : (s.chipFrameOk d).chipPtr = Config.freeByte s.draws := rfl
@[simp] theorem chipFrameOk_draws (d : List Byte) (s : State) : (s.chipFrameOk d).draws = s.draws + 1 := rfl

/-! ### chipFrameFailed -/

@[simp] theorem chipFrameFailed_binding (d : List Byte) (s : State) : (s.chipFrameFailed d).binding = s.binding := rfl
@[simp] theorem chipFrameFailed_life (d : List Byte) (s : State) : (s.chipFrameFailed d).life = s.life := rfl
@[simp] theorem chipFrameFailed_phase (d : List Byte) (s : State) : (s.chipFrameFailed d).phase = s.phase := rfl
@[simp] theorem chipFrameFailed_op (d : List Byte) (s : State) : (s.chipFrameFailed d).op = s.op := rfl
@[simp] theorem chipFrameFailed_ptr (d : List Byte) (s : State) : (s.chipFrameFailed d).ptr = s.ptr := rfl
@[simp] theorem chipFrameFailed_cur (d : List Byte) (s : State) : (s.chipFrameFailed d).cur = s.cur := rfl
@[simp] theorem chipFrameFailed_n (d : List Byte) (s : State) : (s.chipFrameFailed d).n = s.n := rfl
@[simp] theorem chipFrameFailed_resp (d : List Byte) (s : State) : (s.chipFrameFailed d).resp = s.resp := rfl
@[simp] theorem chipFrameFailed_pending (d : List Byte) (s : State) : (s.chipFrameFailed d).pending = s.pending := rfl
@[simp] theorem chipFrameFailed_port (d : List Byte) (s : State) : (s.chipFrameFailed d).port = s.port := rfl
@[simp] theorem chipFrameFailed_inputs (d : List Byte) (s : State) : (s.chipFrameFailed d).inputs = s.inputs := rfl
@[simp] theorem chipFrameFailed_calls (d : List Byte) (s : State) : (s.chipFrameFailed d).calls = s.calls := rfl
@[simp] theorem chipFrameFailed_chip (d : List Byte) (s : State) : (s.chipFrameFailed d).chip = Memory.frameFailed s.draws s.chip s.ptr (s.chunk d) := rfl
@[simp] theorem chipFrameFailed_chipPtr (d : List Byte) (s : State) : (s.chipFrameFailed d).chipPtr = Config.freeByte s.draws := rfl
@[simp] theorem chipFrameFailed_draws (d : List Byte) (s : State) : (s.chipFrameFailed d).draws = s.draws + 1 := rfl

/-! ### setPointer -/

@[simp] theorem setPointer_binding (a : Byte) (s : State) : (s.setPointer a).binding = s.binding := rfl
@[simp] theorem setPointer_life (a : Byte) (s : State) : (s.setPointer a).life = s.life := rfl
@[simp] theorem setPointer_phase (a : Byte) (s : State) : (s.setPointer a).phase = s.phase := rfl
@[simp] theorem setPointer_op (a : Byte) (s : State) : (s.setPointer a).op = s.op := rfl
@[simp] theorem setPointer_ptr (a : Byte) (s : State) : (s.setPointer a).ptr = s.ptr := rfl
@[simp] theorem setPointer_cur (a : Byte) (s : State) : (s.setPointer a).cur = s.cur := rfl
@[simp] theorem setPointer_n (a : Byte) (s : State) : (s.setPointer a).n = s.n := rfl
@[simp] theorem setPointer_resp (a : Byte) (s : State) : (s.setPointer a).resp = s.resp := rfl
@[simp] theorem setPointer_pending (a : Byte) (s : State) : (s.setPointer a).pending = s.pending := rfl
@[simp] theorem setPointer_port (a : Byte) (s : State) : (s.setPointer a).port = s.port := rfl
@[simp] theorem setPointer_inputs (a : Byte) (s : State) : (s.setPointer a).inputs = s.inputs := rfl
@[simp] theorem setPointer_calls (a : Byte) (s : State) : (s.setPointer a).calls = s.calls := rfl
@[simp] theorem setPointer_chip (a : Byte) (s : State) : (s.setPointer a).chip = s.chip := rfl
@[simp] theorem setPointer_chipPtr (a : Byte) (s : State) :
    (s.setPointer a).chipPtr = if inMap a 1 then a else Config.freeByte s.draws := rfl
@[simp] theorem setPointer_draws (a : Byte) (s : State) :
    (s.setPointer a).draws = if inMap a 1 then s.draws else s.draws + 1 := rfl

/-- At a mapped register the pointer is that register and nothing else changes. -/
theorem setPointer_mapped {a : Byte} (h : inMap a 1) (s : State) : s.setPointer a = { s with chipPtr := a } := by
  simp only [setPointer, if_pos h]

/-- Past the map the pointer is a free value. -/
theorem setPointer_unmapped {a : Byte} (h : ¬ inMap a 1) (s : State) : s.setPointer a = s.losePointer := by
  simp only [setPointer, if_neg h, losePointer]

/-! ### loseSequencer -/

@[simp] theorem loseSequencer_binding (s : State) : (s.loseSequencer).binding = s.binding := rfl
@[simp] theorem loseSequencer_life (s : State) : (s.loseSequencer).life = s.life := rfl
@[simp] theorem loseSequencer_phase (s : State) : (s.loseSequencer).phase = s.phase := rfl
@[simp] theorem loseSequencer_op (s : State) : (s.loseSequencer).op = Config.freeByte s.draws := rfl
@[simp] theorem loseSequencer_ptr (s : State) : (s.loseSequencer).ptr = Config.freeByte (s.draws + 1) := rfl
@[simp] theorem loseSequencer_cur (s : State) : (s.loseSequencer).cur = Config.freeByte (s.draws + 2) := rfl
@[simp] theorem loseSequencer_n (s : State) : (s.loseSequencer).n = Config.freeByte (s.draws + 3) := rfl
@[simp] theorem loseSequencer_resp (s : State) : (s.loseSequencer).resp = s.resp := rfl
@[simp] theorem loseSequencer_pending (s : State) : (s.loseSequencer).pending = s.pending := rfl
@[simp] theorem loseSequencer_port (s : State) : (s.loseSequencer).port = s.port := rfl
@[simp] theorem loseSequencer_inputs (s : State) : (s.loseSequencer).inputs = s.inputs := rfl
@[simp] theorem loseSequencer_calls (s : State) : (s.loseSequencer).calls = s.calls := rfl
@[simp] theorem loseSequencer_chip (s : State) : (s.loseSequencer).chip = s.chip := rfl
@[simp] theorem loseSequencer_chipPtr (s : State) : (s.loseSequencer).chipPtr = s.chipPtr := rfl
@[simp] theorem loseSequencer_draws (s : State) : (s.loseSequencer).draws = s.draws + 4 := rfl

/-! ### hold -/

@[simp] theorem hold_binding (b : List Byte) (s : State) : (s.hold b).binding = s.binding := rfl
@[simp] theorem hold_life (b : List Byte) (s : State) : (s.hold b).life = s.life := rfl
@[simp] theorem hold_phase (b : List Byte) (s : State) : (s.hold b).phase = s.phase := rfl
@[simp] theorem hold_op (b : List Byte) (s : State) : (s.hold b).op = s.op := rfl
@[simp] theorem hold_ptr (b : List Byte) (s : State) : (s.hold b).ptr = s.ptr := rfl
@[simp] theorem hold_cur (b : List Byte) (s : State) : (s.hold b).cur = s.cur := rfl
@[simp] theorem hold_n (b : List Byte) (s : State) : (s.hold b).n = s.n := rfl
@[simp] theorem hold_resp (b : List Byte) (s : State) : (s.hold b).resp = s.resp := rfl
@[simp] theorem hold_pending (b : List Byte) (s : State) : (s.hold b).pending = s.pending := rfl
@[simp] theorem hold_port (b : List Byte) (s : State) : (s.hold b).port = s.port ++ [b] := rfl
@[simp] theorem hold_inputs (b : List Byte) (s : State) : (s.hold b).inputs = s.inputs := rfl
@[simp] theorem hold_calls (b : List Byte) (s : State) : (s.hold b).calls = s.calls := rfl
@[simp] theorem hold_chip (b : List Byte) (s : State) : (s.hold b).chip = s.chip := rfl
@[simp] theorem hold_chipPtr (b : List Byte) (s : State) : (s.hold b).chipPtr = s.chipPtr := rfl
@[simp] theorem hold_draws (b : List Byte) (s : State) : (s.hold b).draws = s.draws := rfl

/-! ### engineReset -/

@[simp] theorem engineReset_life (s : State) : s.engineReset.life = .uninit := rfl
@[simp] theorem engineReset_phase (s : State) : s.engineReset.phase = .idle := rfl
@[simp] theorem engineReset_resp (s : State) : s.engineReset.resp = none := rfl
@[simp] theorem engineReset_pending (s : State) : s.engineReset.pending = none := rfl
@[simp] theorem abandon_binding (s : State) : s.abandon.binding = s.binding := by unfold abandon; split <;> rfl
@[simp] theorem engineReset_binding (s : State) : s.engineReset.binding = s.binding := abandon_binding s
@[simp] theorem abandon_port (s : State) : s.abandon.port = s.port := by unfold abandon; split <;> rfl
@[simp] theorem engineReset_port (s : State) : s.engineReset.port = s.port := abandon_port s
@[simp] theorem abandon_inputs (s : State) : s.abandon.inputs = s.inputs := by unfold abandon; split <;> rfl
@[simp] theorem engineReset_inputs (s : State) : s.engineReset.inputs = s.inputs := abandon_inputs s
@[simp] theorem abandon_calls (s : State) : s.abandon.calls = s.calls := by unfold abandon; split <;> rfl
@[simp] theorem engineReset_calls (s : State) : s.engineReset.calls = s.calls := abandon_calls s
@[simp] theorem engineReset_chip (s : State) : s.engineReset.chip = s.abandon.chip := rfl

/-! ### rebind -/

@[simp] theorem rebind_binding (b : Binding) (s : State) : (s.rebind b).binding = b := by unfold rebind; split <;> rfl
@[simp] theorem rebind_life (b : Binding) (s : State) : (s.rebind b).life = s.life := by unfold rebind; split <;> rfl
@[simp] theorem rebind_phase (b : Binding) (s : State) : (s.rebind b).phase = s.phase := by unfold rebind; split <;> rfl
@[simp] theorem rebind_op (b : Binding) (s : State) : (s.rebind b).op = s.op := by unfold rebind; split <;> rfl
@[simp] theorem rebind_ptr (b : Binding) (s : State) : (s.rebind b).ptr = s.ptr := by unfold rebind; split <;> rfl
@[simp] theorem rebind_cur (b : Binding) (s : State) : (s.rebind b).cur = s.cur := by unfold rebind; split <;> rfl
@[simp] theorem rebind_n (b : Binding) (s : State) : (s.rebind b).n = s.n := by unfold rebind; split <;> rfl
@[simp] theorem rebind_resp (b : Binding) (s : State) : (s.rebind b).resp = s.resp := by unfold rebind; split <;> rfl
@[simp] theorem rebind_pending (b : Binding) (s : State) : (s.rebind b).pending = s.pending := by unfold rebind; split <;> rfl
@[simp] theorem rebind_port (b : Binding) (s : State) : (s.rebind b).port = s.port := by unfold rebind; split <;> rfl
@[simp] theorem rebind_inputs (b : Binding) (s : State) : (s.rebind b).inputs = s.inputs := by unfold rebind; split <;> rfl
@[simp] theorem rebind_calls (b : Binding) (s : State) : (s.rebind b).calls = s.calls := by unfold rebind; split <;> rfl

end Sys2Proof.Machine.State
end

