-- ==== Sys2Proof/Laws/Memory.lean ====
section
/-! SUPPORT. The laws of chip memory: read after write, what a run of bytes leaves alone, and that every operation keeps the canonical
form and the mapped range. -/

namespace Sys2Proof.Machine.Memory

@[simp] theorem read_nil (a : Nat) : read [] a = none := rfl

/-- Read after write, same address or another. -/
theorem read_write (m : Memory) (a c : Nat) (b : Byte) :
    (m.write a b).read c = if c = a then some b else m.read c := by
  induction m with
  | nil => simp [write, read]
  | cons x m ih =>
    obtain ⟨a', b'⟩ := x
    simp only [write]
    split
    · simp [read]
    · split
      · next h => subst h; simp only [read]; split <;> rfl
      · next h1 h2 =>
        simp only [read, ih]
        split
        · next h => subst h; rw [if_neg (fun e => h2 e.symm)]
        · rfl

@[simp] theorem read_write_same (m : Memory) (a : Nat) (b : Byte) : (m.write a b).read a = some b := by
  simp [read_write]

theorem read_write_other (m : Memory) {a c : Nat} (b : Byte) (h : c ≠ a) : (m.write a b).read c = m.read c := by
  simp [read_write, h]

/-- Reading after a run of bytes was put: byte `c - a` of the run inside it, the old value outside. -/
theorem read_writeBytes (m : Memory) (a c : Nat) (bs : List Byte) :
    (m.writeBytes a bs).read c = if a ≤ c ∧ c < a + bs.length then bs[c - a]? else m.read c := by
  induction bs generalizing m a with
  | nil => rw [if_neg (by simp)]; rfl
  | cons b bs ih =>
    rw [writeBytes, ih, read_write]
    by_cases hca : c = a
    · subst hca
      rw [if_neg (by omega), if_pos rfl, if_pos (by simp)]
      simp
    · by_cases hin : a + 1 ≤ c ∧ c < a + 1 + bs.length
      · rw [if_pos hin, if_pos (by simp; omega)]
        have : c - a = (c - (a + 1)) + 1 := by omega
        rw [this, List.getElem?_cons_succ]
      · rw [if_neg hin, if_neg hca, if_neg (by simp; omega)]

/-- After a partly applied run each register of it reads its old or its new value, and every other reads as before. -/
theorem read_writeSome (landed : Nat → Bool) (k : Nat) (m : Memory) (a c : Nat) (bs : List Byte) :
    (writeSome landed k m a bs).read c =
      if a ≤ c ∧ c < a + bs.length then (if landed (k + (c - a)) then bs[c - a]? else m.read c) else m.read c := by
  induction bs generalizing m a k with
  | nil => rw [if_neg (by simp)]; rfl
  | cons b bs ih =>
    have hstep : (if landed k = true then m.write a b else m).read c =
        if c = a then (if landed k = true then some b else m.read a) else m.read c := by
      by_cases hl : landed k = true
      · simp only [hl, if_true, read_write]
      · simp only [hl, Bool.false_eq_true, if_false]; split <;> simp_all
    rw [writeSome, ih, hstep]
    by_cases hca : c = a
    · subst hca
      simp
    · simp only [hca, if_false]
      by_cases hin : a + 1 ≤ c ∧ c < a + 1 + bs.length
      · have h1 : c - a = (c - (a + 1)) + 1 := by omega
        have h2 : k + (c - (a + 1) + 1) = k + 1 + (c - (a + 1)) := by omega
        have h3 : a ≤ c ∧ c < a + (b :: bs).length := by simp; omega
        simp only [hin, h3, and_self, if_true, h1, h2, List.getElem?_cons_succ]
      · have h3 : ¬ (a ≤ c ∧ c < a + (b :: bs).length) := by simp; omega
        rw [if_neg hin, if_neg h3]

/-! ### The canonical form -/

theorem wfFrom_weaken {m : Memory} {lo : Nat} {o : Option Nat} (h : wfFrom (some lo) m = true)
    (ho : ∀ x ∈ o, x ≤ lo) : wfFrom o m = true := by
  cases m with
  | nil => cases o <;> rfl
  | cons x m =>
    obtain ⟨a, b⟩ := x
    simp only [wfFrom, Bool.and_eq_true, decide_eq_true_eq] at h
    cases o with
    | none => exact h.2
    | some l =>
      simp only [wfFrom, Bool.and_eq_true, decide_eq_true_eq]
      exact ⟨lt_of_le_of_lt (ho l rfl) h.1, h.2⟩

theorem wfFrom_write {m : Memory} {o : Option Nat} {a : Nat} {b : Byte} (h : wfFrom o m = true)
    (ho : ∀ x ∈ o, x < a) : wfFrom o (m.write a b) = true := by
  induction m generalizing o with
  | nil =>
    cases o with
    | none => rfl
    | some l => simpa [write, wfFrom] using ho l rfl
  | cons x m ih =>
    obtain ⟨a', b'⟩ := x
    have htail : wfFrom (some a') m = true := by
      cases o with
      | none => exact h
      | some l => simp only [wfFrom, Bool.and_eq_true] at h; exact h.2
    have hhead : ∀ x ∈ o, x < a' := by
      cases o with
      | none => simp
      | some l =>
        simp only [wfFrom, Bool.and_eq_true, decide_eq_true_eq] at h
        intro x hx; cases hx; exact h.1
    have build : ∀ (c : Nat) (d : Byte) (r : Memory), (∀ x ∈ o, x < c) → wfFrom (some c) r = true →
        wfFrom o ((c, d) :: r) = true := by
      intro c d r hc hr
      cases o with
      | none => exact hr
      | some l => simp only [wfFrom, Bool.and_eq_true, decide_eq_true_eq]; exact ⟨hc l rfl, hr⟩
    simp only [write]
    split
    · next hlt => exact build _ _ _ ho (by simp only [wfFrom, Bool.and_eq_true, decide_eq_true_eq]; exact ⟨hlt, htail⟩)
    · split
      · next heq => subst heq; exact build _ _ _ ho htail
      · next h1 h2 => exact build _ _ _ hhead (ih htail (by intro x hx; cases hx; omega))

/-- Putting one byte keeps the canonical form. -/
theorem wf_write {m : Memory} (h : m.wf = true) (a : Nat) (b : Byte) : (m.write a b).wf = true :=
  wfFrom_write h (by simp)

theorem wf_writeBytes {m : Memory} (h : m.wf = true) (a : Nat) (bs : List Byte) : (m.writeBytes a bs).wf = true := by
  induction bs generalizing m a with
  | nil => exact h
  | cons b bs ih => exact ih (wf_write h a b) (a + 1)

theorem wf_writeSome {m : Memory} (h : m.wf = true) (landed : Nat → Bool) (k a : Nat) (bs : List Byte) :
    (writeSome landed k m a bs).wf = true := by
  induction bs generalizing m a k with
  | nil => exact h
  | cons b bs ih =>
    refine ih ?_ (k + 1) (a + 1)
    split
    · exact wf_write h a b
    · exact h

/-! ### The mapped range -/

theorem bounded_write {m : Memory} {a : Nat} {b : Byte} (h : ∀ c ∈ m, c.1 < mappedSize) (ha : a < mappedSize) :
    ∀ c ∈ m.write a b, c.1 < mappedSize := by
  induction m with
  | nil => intro c hc; simp only [write, List.mem_singleton] at hc; subst hc; exact ha
  | cons x m ih =>
    obtain ⟨a', b'⟩ := x
    have hx : a' < mappedSize := h (a', b') (by simp)
    have hm : ∀ c ∈ m, c.1 < mappedSize := fun c hc => h c (by simp [hc])
    intro c hc
    simp only [write] at hc
    split at hc
    · simp only [List.mem_cons] at hc
      rcases hc with rfl | rfl | hc
      exacts [ha, hx, hm c hc]
    · split at hc
      · simp only [List.mem_cons] at hc
        rcases hc with rfl | hc
        exacts [ha, hm c hc]
      · simp only [List.mem_cons] at hc
        rcases hc with rfl | hc
        exacts [hx, ih hm c hc]

theorem bounded_writeBytes {m : Memory} {a : Nat} {bs : List Byte} (h : ∀ c ∈ m, c.1 < mappedSize)
    (ha : a + bs.length ≤ mappedSize) : ∀ c ∈ m.writeBytes a bs, c.1 < mappedSize := by
  induction bs generalizing m a with
  | nil => exact h
  | cons b bs ih =>
    simp only [List.length_cons] at ha
    exact ih (bounded_write h (by omega)) (by omega)

theorem bounded_writeSome {m : Memory} {a k : Nat} {bs : List Byte} (landed : Nat → Bool)
    (h : ∀ c ∈ m, c.1 < mappedSize) (ha : a + bs.length ≤ mappedSize) :
    ∀ c ∈ writeSome landed k m a bs, c.1 < mappedSize := by
  induction bs generalizing m a k with
  | nil => exact h
  | cons b bs ih =>
    simp only [List.length_cons] at ha
    refine ih ?_ (by omega)
    split
    · exact bounded_write h (by omega)
    · exact h

/-! ### The two effects of a frame -/

/-- The canonical form and the mapped range together. -/
abbrev Ok (m : Memory) : Prop := m.wf = true ∧ ∀ c ∈ m, c.1 < mappedSize

theorem ok_frameOk {m : Memory} (h : Ok m) (a : Byte) (bs : List Byte) : Ok (m.frameOk a bs) := by
  unfold frameOk
  split
  · next hin => exact ⟨wf_writeBytes h.1 _ _, bounded_writeBytes h.2 hin⟩
  · exact ⟨rfl, by simp⟩

theorem ok_frameFailed {m : Memory} (h : Ok m) (d : Nat) (a : Byte) (bs : List Byte) : Ok (frameFailed d m a bs) := by
  unfold frameFailed
  split
  · next hin => exact ⟨wf_writeSome h.1 _ _ _ _, bounded_writeSome _ h.2 hin⟩
  · exact ⟨rfl, by simp⟩

/-- A frame inside the map, answered OK: its registers read its bytes, the others as before. -/
theorem read_frameOk {m : Memory} {a : Byte} {bs : List Byte} (h : a.toNat + bs.length ≤ mappedSize) (c : Nat) :
    (m.frameOk a bs).read c =
      if a.toNat ≤ c ∧ c < a.toNat + bs.length then bs[c - a.toNat]? else m.read c := by
  rw [frameOk, if_pos h, read_writeBytes]

/-- A frame inside the map, failed: its registers read old or new bytes, the others as before. -/
theorem read_frameFailed {m : Memory} {a : Byte} {bs : List Byte} (d : Nat) (h : a.toNat + bs.length ≤ mappedSize) (c : Nat) :
    (frameFailed d m a bs).read c =
      if a.toNat ≤ c ∧ c < a.toNat + bs.length then
        (if Config.frameByteLanded d (c - a.toNat) then bs[c - a.toNat]? else m.read c)
      else m.read c := by
  rw [frameFailed, if_pos h, read_writeSome, Nat.zero_add]

end Sys2Proof.Machine.Memory
end

