-- ==== Sys2Proof/Laws/Ops.lean ====
section
/-! SUPPORT. One specification per shared operation: `sendNext`, `answered`, `settle`, and the planner's whole Write. -/

namespace Sys2Proof.Machine

/-! ### settle -/

@[simp] theorem settle_nil (s : State) : settle [] s = .next { s with inputs := [] } := rfl

@[simp] theorem settle_request (b : List Byte) (r : List Input) (s : State) :
    settle (.request b :: r) s = .next { s with inputs := .request b :: r } := rfl

@[simp] theorem settle_bind (b : Binding) (r : List Input) (s : State) :
    settle (.bind b :: r) s = .next { s with inputs := .bind b :: r } := rfl

@[simp] theorem settle_reset (r : List Input) (s : State) :
    settle (.reset :: r) s = .next { s with inputs := .reset :: r } := rfl

/-- With no call outstanding nothing is taken. -/
theorem settle_done (ins : List Input) {s : State} (h : s.pending = none) :
    settle ins s = .next { s with inputs := ins } := by
  cases ins with
  | nil => rfl
  | cons i r => cases i <;> simp [settle, h]

/-- An operation that has ended answers at once. -/
theorem run_done {s : State} (h : s.pending = none) : s.run = .next s := settle_done s.inputs h

/-- One answer within the contract is taken. -/
theorem settle_answer {s : State} {p : Pending} (a : Answer) (r : List Input) (h : s.pending = some p)
    (hf : a.fits p.expects = true) : settle (.answer a :: r) s = settle r (s.answered p a) := by
  simp [settle, h, hf]

/-- The first answer to a waiting operation. -/
theorem run_answer {s : State} {p : Pending} (a : Answer) {r : List Input} (h : s.pending = some p)
    (hi : s.inputs = .answer a :: r) (hf : a.fits p.expects = true) : s.run = settle r (s.answered p a) := by
  rw [State.run, hi, settle_answer a r h hf]

/-- An answer outside the contract stops the model. -/
theorem settle_misfit {s : State} {p : Pending} (a : Answer) (r : List Input) (h : s.pending = some p)
    (hf : a.fits p.expects = false) : settle (.answer a :: r) s = .fault .answerLength := by
  simp [settle, h, hf]

/-- Induction over the answers that `settle` takes: what holds at the start and is kept by every answer within the contract holds of the
state it answers, up to the host moves left. -/
theorem settle_induction {P : State → Prop} (hin : ∀ s ins, P s → P { s with inputs := ins })
    (hans : ∀ s p a, P s → s.pending = some p → a.fits p.expects = true → P (s.answered p a))
    (ins : List Input) {s t : State} (hs : P s) (h : settle ins s = .next t) : P t := by
  induction ins generalizing s with
  | nil => cases h; exact hin _ _ hs
  | cons i r ih =>
    cases i with
    | request b => cases h; exact hin _ _ hs
    | bind b => cases h; exact hin _ _ hs
    | reset => cases h; exact hin _ _ hs
    | answer a =>
      cases hp : s.pending with
      | none => rw [settle_done _ hp] at h; cases h; exact hin _ _ hs
      | some p =>
        cases hf : a.fits p.expects with
        | false => rw [settle_misfit a r hp hf] at h; cases h
        | true => rw [settle_answer a r hp hf] at h; exact ih (hans s p a hs hp hf) h

/-- `settle` stops the model in one way only. -/
theorem settle_never_refuses (ins : List Input) (s : State) (r : Refusal) : settle ins s ≠ .refused r := by
  induction ins generalizing s with
  | nil => simp
  | cons i rest ih =>
    cases i with
    | request b => simp
    | bind b => simp
    | reset => simp
    | answer a =>
      cases hp : s.pending with
      | none => rw [settle_done _ hp]; simp
      | some p =>
        cases hf : a.fits p.expects with
        | false => rw [settle_misfit a rest hp hf]; simp
        | true => rw [settle_answer a rest hp hf]; exact ih _

/-! ### sendNext and answered -/

theorem sendNext_more {data : List Byte} {s : State} (h : s.cur.toNat < s.n.toNat) :
    s.sendNext data = s.issue (.send s.binding.slaveAddr (s.frame data)) (.write data) := if_pos h

theorem sendNext_end {data : List Byte} {s : State} (h : ¬ s.cur.toNat < s.n.toNat) :
    s.sendNext data = s.succeed [] := if_neg h

@[simp] theorem sendNext_binding (data : List Byte) (s : State) : (s.sendNext data).binding = s.binding := by
  unfold State.sendNext; split <;> rfl
@[simp] theorem sendNext_life (data : List Byte) (s : State) : (s.sendNext data).life = s.life := by
  unfold State.sendNext; split <;> rfl
@[simp] theorem sendNext_op (data : List Byte) (s : State) : (s.sendNext data).op = s.op := by
  unfold State.sendNext; split <;> rfl
@[simp] theorem sendNext_ptr (data : List Byte) (s : State) : (s.sendNext data).ptr = s.ptr := by
  unfold State.sendNext; split <;> rfl
@[simp] theorem sendNext_cur (data : List Byte) (s : State) : (s.sendNext data).cur = s.cur := by
  unfold State.sendNext; split <;> rfl
@[simp] theorem sendNext_n (data : List Byte) (s : State) : (s.sendNext data).n = s.n := by
  unfold State.sendNext; split <;> rfl
@[simp] theorem sendNext_port (data : List Byte) (s : State) : (s.sendNext data).port = s.port := by
  unfold State.sendNext; split <;> rfl
@[simp] theorem sendNext_chip (data : List Byte) (s : State) : (s.sendNext data).chip = s.chip := by
  unfold State.sendNext; split <;> rfl

/-- No answer changes the configuration, the held requests or `OP`. -/
@[simp] theorem answered_binding (p : Pending) (a : Answer) (s : State) : (s.answered p a).binding = s.binding := by
  cases p <;> cases a <;> simp [State.answered]
@[simp] theorem answered_port (p : Pending) (a : Answer) (s : State) : (s.answered p a).port = s.port := by
  cases p <;> cases a <;> simp [State.answered]
@[simp] theorem answered_op (p : Pending) (a : Answer) (s : State) : (s.answered p a).op = s.op := by
  cases p <;> cases a <;> simp [State.answered]

/-! ### Host moves not yet taken -/

/-- Which host moves are still to come is nothing to the planner. -/
theorem sendNext_withInputs (data : List Byte) (ins : List Input) (s : State) :
    State.sendNext data { s with inputs := ins } = { s.sendNext data with inputs := ins } := by
  simp only [State.sendNext]; split <;> rfl

/-- Nor to the handling of an answer. -/
theorem answered_withInputs (p : Pending) (a : Answer) (ins : List Input) (s : State) :
    State.answered p a { s with inputs := ins } = { s.answered p a with inputs := ins } := by
  cases p <;> cases a
  case write.ok data _ => exact sendNext_withInputs data ins (State.advance (s.chipFrameOk data))
  all_goals rfl

/-- `settle` takes the host's moves from its argument alone. -/
theorem settle_withInputs (moves ins : List Input) (s : State) : settle moves { s with inputs := ins } = settle moves s := by
  induction moves generalizing s with
  | nil => rfl
  | cons m rest ih =>
    cases m with
    | request b => rfl
    | bind b => rfl
    | reset => rfl
    | answer a =>
      by_cases hp : s.pending = none
      · have hp' : State.pending { s with inputs := ins } = none := hp
        exact (settle_done _ hp').trans (settle_done _ hp).symm
      · obtain ⟨p, hp⟩ := Option.ne_none_iff_exists'.mp hp
        have hp' : State.pending { s with inputs := ins } = some p := hp
        cases hf : a.fits p.expects with
        | false => exact (settle_misfit a rest hp' hf).trans (settle_misfit a rest hp hf).symm
        | true =>
          refine (settle_answer a rest hp' hf).trans (Eq.trans ?_ (settle_answer a rest hp hf).symm)
          rw [answered_withInputs, ih]

/-- Where the host's next move is no answer, nothing is taken. -/
theorem settle_noAnswer {moves : List Input} (h : ∀ a rest, moves ≠ .answer a :: rest) (s : State) :
    settle moves s = .next { s with inputs := moves } := by
  cases moves with
  | nil => rfl
  | cons m rest =>
    cases m with
    | request b => rfl
    | bind b => rfl
    | reset => rfl
    | answer a => exact absurd rfl (h a rest)

theorem chunkLen_pos {s : State} (hcap : 2 ≤ s.binding.cap) (h : s.cur.toNat < s.n.toNat) : 0 < s.chunkLen := by
  unfold State.chunkLen; omega

theorem chunkLen_le (s : State) : s.chunkLen ≤ s.n.toNat - s.cur.toNat := Nat.min_le_right _ _

theorem chunk_length {s : State} {data : List Byte} (h : s.n.toNat = data.length) :
    (s.chunk data).length = s.chunkLen := by
  have := chunkLen_le s
  simp only [State.chunk, List.length_take, List.length_drop]
  omega

/-- `CUR` advances without wrapping. -/
theorem advance_cur_toNat (s : State) (h : s.cur.toNat ≤ s.n.toNat) :
    s.advance.cur.toNat = s.cur.toNat + s.chunkLen := by
  have h1 := chunkLen_le s
  have h2 := s.n.isLt
  simp only [State.advance_cur, BitVec.toNat_add, BitVec.toNat_ofNat]
  omega

end Sys2Proof.Machine
end

