-- ==== Sys2Proof/Laws/Planner.lean ====
section
/-! SUPPORT. The planner's Write as a whole: where it stands after `j` frames, and how it ends (spec/41_transfer_planner.md R131 to R133). -/

namespace Sys2Proof.Machine

/-- The range of registers that the first `done` bytes of a Write cover reads those bytes, every other register as in `s₀`; claimed for a
Write inside the map only (R52). -/
abbrev ChipPrefix (s₀ : State) (start : Byte) (data : List Byte) (done : Nat) (m : Memory) : Prop :=
  start.toNat + data.length ≤ mappedSize → ∀ c, m.read c =
    if start.toNat ≤ c ∧ c < start.toNat + done then data[c - start.toNat]? else s₀.chip.read c

/-- What a Write of `data` from `start`, begun in `s₀`, keeps while it runs, `done` bytes having been sent. -/
structure WriteProgress (s₀ : State) (start : Byte) (data : List Byte) (done : Nat) (s : State) : Prop where
  binding : s.binding = s₀.binding
  life    : s.life = s₀.life
  op      : s.op = s₀.op
  port    : s.port = s₀.port
  n       : s.n.toNat = data.length
  cur     : s.cur.toNat = done
  ptr     : s.ptr = start + BitVec.ofNat 8 done
  chip    : ChipPrefix s₀ start data done s.chip

/-- The Write waits for the answer to its frame `j`. -/
structure WriteWaiting (s₀ : State) (start : Byte) (data : List Byte) (j : Nat) (s : State) : Prop
    extends WriteProgress s₀ start data (j * (s₀.binding.cap - 1)) s where
  pending : s.pending = some (.write data)
  phase   : s.phase = s₀.phase
  resp    : s.resp = s₀.resp
  calls   : s.calls = s₀.calls ++ s₀.sends ((planFrames s₀.binding.cap start data).take (j + 1))

/-- The Write has ended with Success. -/
structure WriteEnded (s₀ : State) (start : Byte) (data : List Byte) (s : State) : Prop
    extends WriteProgress s₀ start data data.length s where
  pending : s.pending = none
  phase   : s.phase = .idle
  resp    : s.resp = some ⟨.success, []⟩
  calls   : s.calls = s₀.calls ++ s₀.sends (planFrames s₀.binding.cap start data)

theorem frameCount_spec {cap len j : Nat} (hcap : 2 ≤ cap) : j < frameCount cap len ↔ j * (cap - 1) < len := by
  unfold frameCount
  have hw : 0 < cap - 1 := by omega
  generalize cap - 1 = w at hw
  rw [Nat.lt_iff_add_one_le, Nat.le_div_iff_mul_le hw, Nat.add_mul]
  omega

theorem planFrames_length (cap : Nat) (start : Byte) (data : List Byte) :
    (planFrames cap start data).length = frameCount cap data.length := by
  simp [planFrames]

theorem planFrames_take_succ {cap : Nat} {start : Byte} {data : List Byte} {j : Nat} (h : j < frameCount cap data.length) :
    (planFrames cap start data).take (j + 1) = (planFrames cap start data).take j ++ [planFrame cap start data j] := by
  rw [List.take_add_one]
  simp [planFrames, h]

/-- The frame that the machine sends at progress `j` is frame `j` of the closed form. -/
theorem frame_eq_planFrame {s₀ s : State} {start : Byte} {data : List Byte} {j : Nat}
    (h : WriteProgress s₀ start data (j * (s₀.binding.cap - 1)) s) :
    s.frame data = planFrame s₀.binding.cap start data j := by
  simp only [State.frame, State.chunk, State.chunkLen, planFrame, h.ptr, h.cur, h.n, h.binding]
  congr 1
  rw [List.take_eq_take_iff]
  simp

/-- The head of the loop, at progress `j`: the next frame goes out, or the Write ends. -/
theorem sendNext_progress {s₀ s : State} {start : Byte} {data : List Byte} {j : Nat} (hcap : 2 ≤ s₀.binding.cap)
    (hp : WriteProgress s₀ start data (min (j * (s₀.binding.cap - 1)) data.length) s)
    (hj : j ≤ frameCount s₀.binding.cap data.length)
    (hphase : s.phase = s₀.phase) (hresp : s.resp = s₀.resp)
    (hcalls : s.calls = s₀.calls ++ s₀.sends ((planFrames s₀.binding.cap start data).take j)) :
    (j < frameCount s₀.binding.cap data.length ∧ WriteWaiting s₀ start data j (s.sendNext data)) ∨
    (j = frameCount s₀.binding.cap data.length ∧ WriteEnded s₀ start data (s.sendNext data)) := by
  have hspec := frameCount_spec (len := data.length) (j := j) hcap
  by_cases hlt : j < frameCount s₀.binding.cap data.length
  · left
    have hd := hspec.mp hlt
    rw [Nat.min_eq_left (Nat.le_of_lt hd)] at hp
    have hmore : s.cur.toNat < s.n.toNat := by rw [hp.cur, hp.n]; exact hd
    refine ⟨hlt, ?_⟩
    rw [sendNext_more hmore]
    refine ⟨⟨hp.binding, hp.life, hp.op, hp.port, hp.n, hp.cur, hp.ptr, hp.chip⟩, rfl, hphase, hresp, ?_⟩
    rw [planFrames_take_succ hlt, State.issue_calls, hcalls, frame_eq_planFrame hp, hp.binding]
    simp [State.sends]
  · right
    have hje : j = frameCount s₀.binding.cap data.length := by omega
    have hd : data.length ≤ j * (s₀.binding.cap - 1) := by omega
    rw [Nat.min_eq_right hd] at hp
    have hend : ¬ s.cur.toNat < s.n.toNat := by rw [hp.cur, hp.n]; omega
    refine ⟨hje, ?_⟩
    rw [sendNext_end hend]
    refine ⟨⟨hp.binding, hp.life, hp.op, hp.port, hp.n, hp.cur, hp.ptr, hp.chip⟩, rfl, rfl, rfl, ?_⟩
    rw [State.succeed_calls, hcalls, List.take_of_length_le (by rw [planFrames_length]; omega)]

/-- `plan_write` begins at frame 0, or ends at once when there is no data (R135). -/
theorem planWrite_begins {s₀ : State} {start : Byte} {data : List Byte} (hcap : 2 ≤ s₀.binding.cap)
    (hfit : data.length ≤ 255) :
    (0 < frameCount s₀.binding.cap data.length ∧ WriteWaiting s₀ start data 0 (s₀.planWrite start data)) ∨
    (0 = frameCount s₀.binding.cap data.length ∧ WriteEnded s₀ start data (s₀.planWrite start data)) := by
  refine sendNext_progress (s := { s₀ with ptr := start, cur := 0, n := BitVec.ofNat 8 data.length }) hcap
    ⟨rfl, rfl, rfl, rfl, ?_, ?_, ?_, ?_⟩ (Nat.zero_le _) rfl rfl ?_
  · simp; omega
  · simp
  · simp
  · intro _ c
    rw [if_neg (by simp)]
  · simp [State.sends]

/-- An answer OK to frame `j` sends frame `j + 1`, or ends the Write. -/
theorem answered_ok {s₀ s : State} {start : Byte} {data : List Byte} {j : Nat} (hcap : 2 ≤ s₀.binding.cap)
    (h : WriteWaiting s₀ start data j s) (hj : j < frameCount s₀.binding.cap data.length) :
    (j + 1 < frameCount s₀.binding.cap data.length ∧
      WriteWaiting s₀ start data (j + 1) (s.answered (.write data) (.ok []))) ∨
    (j + 1 = frameCount s₀.binding.cap data.length ∧ WriteEnded s₀ start data (s.answered (.write data) (.ok []))) := by
  have hd := (frameCount_spec hcap).mp hj
  have hcur := h.cur
  have hn := h.n
  have hlen : s.chunkLen = min (s₀.binding.cap - 1) (data.length - j * (s₀.binding.cap - 1)) := by
    rw [State.chunkLen, h.binding, hn, hcur]
  have hsum : j * (s₀.binding.cap - 1) + s.chunkLen = min ((j + 1) * (s₀.binding.cap - 1)) data.length := by
    rw [hlen, Nat.add_mul]; omega
  refine sendNext_progress (s := State.advance (s.chipFrameOk data)) hcap ⟨?_, ?_, ?_, ?_, ?_, ?_, ?_, ?_⟩ hj ?_ ?_ ?_
  · exact h.binding
  · exact h.life
  · exact h.op
  · exact h.port
  · exact hn
  · rw [advance_cur_toNat _ (by show s.cur.toNat ≤ s.n.toNat; omega)]
    exact (congrArg (· + s.chunkLen) hcur).trans hsum
  · rw [State.advance_ptr]
    show s.ptr + BitVec.ofNat 8 s.chunkLen = _
    rw [h.ptr, ← hsum, BitVec.add_assoc, BitVec.ofNat_add]
  · intro hin c
    have hchunk : (s.chunk data).length = s.chunkLen := chunk_length hn
    have hptr : s.ptr.toNat = start.toNat + j * (s₀.binding.cap - 1) := by
      rw [h.ptr, BitVec.toNat_add, BitVec.toNat_ofNat]
      simp only [mappedSize] at hin
      omega
    show (s.chip.frameOk s.ptr (s.chunk data)).read c = _
    rw [Memory.read_frameOk (by rw [hchunk, hptr]; omega), h.chip hin, hchunk, hptr, ← hsum]
    by_cases h1 : start.toNat + j * (s₀.binding.cap - 1) ≤ c ∧ c < start.toNat + j * (s₀.binding.cap - 1) + s.chunkLen
    · rw [if_pos h1, if_pos (by omega), State.chunk, List.getElem?_take_of_lt (by omega), List.getElem?_drop, hcur]
      congr 1
      omega
    · rw [if_neg h1]
      by_cases h2 : start.toNat ≤ c ∧ c < start.toNat + j * (s₀.binding.cap - 1)
      · rw [if_pos h2, if_pos (by omega)]
      · rw [if_neg h2, if_neg (by omega)]
  · exact h.phase
  · exact h.resp
  · exact h.calls

/-- `m` answers OK carry a Write from frame `j` to frame `j + m`, or to its end. -/
theorem settle_oks {s₀ s : State} {start : Byte} {data : List Byte} {j m : Nat} (rest : List Input)
    (hcap : 2 ≤ s₀.binding.cap) (h : WriteWaiting s₀ start data j s)
    (hm : j + m ≤ frameCount s₀.binding.cap data.length) (hj : j < frameCount s₀.binding.cap data.length) :
    (j + m < frameCount s₀.binding.cap data.length ∧
      ∃ u, WriteWaiting s₀ start data (j + m) u ∧ settle (oks m rest) s = settle rest u) ∨
    (j + m = frameCount s₀.binding.cap data.length ∧
      ∃ u, WriteEnded s₀ start data u ∧ settle (oks m rest) s = settle rest u) := by
  induction m generalizing j s with
  | zero => exact .inl ⟨hj, s, h, by simp [oks]⟩
  | succ m ih =>
    have hstep : settle (oks (m + 1) rest) s = settle (oks m rest) (s.answered (.write data) (.ok [])) := by
      rw [oks, List.replicate_succ, List.cons_append]
      exact settle_answer _ _ h.pending rfl
    rw [hstep]
    rcases answered_ok hcap h hj with ⟨hlt, hw⟩ | ⟨heq, he⟩
    · have := ih hw (by omega) hlt
      rw [show j + (m + 1) = j + 1 + m by omega]
      exact this
    · have hm0 : m = 0 := by omega
      subst hm0
      exact .inr ⟨heq, _, he, by simp [oks]⟩

/-- The whole Write, every frame answered OK. -/
theorem planWrite_all_ok {s₀ : State} {start : Byte} {data : List Byte} (rest : List Input) (hcap : 2 ≤ s₀.binding.cap)
    (hfit : data.length ≤ 255) :
    ∃ u, WriteEnded s₀ start data u ∧
      settle (oks (frameCount s₀.binding.cap data.length) rest) (s₀.planWrite start data) = .next { u with inputs := rest } := by
  rcases planWrite_begins (start := start) hcap hfit with ⟨hlt, hw⟩ | ⟨heq, he⟩
  · rcases settle_oks rest hcap hw (m := frameCount s₀.binding.cap data.length) (by omega) hlt with ⟨hbad, _⟩ | ⟨_, u, he, hs⟩
    · omega
    · exact ⟨u, he, by rw [hs, settle_done _ he.pending]⟩
  · refine ⟨_, he, ?_⟩
    rw [← heq, oks, List.replicate_zero, List.nil_append, settle_done _ he.pending]

/-- What is left on the chip when frame `j` of a Write inside the map failed: the earlier frames whole, of the failed one any mix of old and
new bytes, nothing else (R133). -/
abbrev ChipPartial (s₀ : State) (start : Byte) (data : List Byte) (j : Nat) (m : Memory) : Prop :=
  start.toNat + data.length ≤ mappedSize → ∀ c,
    (start.toNat ≤ c ∧ c < start.toNat + j * (s₀.binding.cap - 1) → m.read c = data[c - start.toNat]?) ∧
    (start.toNat + j * (s₀.binding.cap - 1) ≤ c ∧ c < start.toNat + min ((j + 1) * (s₀.binding.cap - 1)) data.length →
      m.read c = data[c - start.toNat]? ∨ m.read c = s₀.chip.read c) ∧
    (c < start.toNat ∨ start.toNat + min ((j + 1) * (s₀.binding.cap - 1)) data.length ≤ c → m.read c = s₀.chip.read c)

/-- The Write has ended at its failed frame `j`. -/
structure WriteFailed (s₀ : State) (start : Byte) (data : List Byte) (j : Nat) (s : State) : Prop where
  binding : s.binding = s₀.binding
  life    : s.life = s₀.life
  op      : s.op = s₀.op
  port    : s.port = s₀.port
  n       : s.n.toNat = data.length
  cur     : s.cur.toNat = j * (s₀.binding.cap - 1)
  ptr     : s.ptr = start + BitVec.ofNat 8 (j * (s₀.binding.cap - 1))
  pending : s.pending = none
  phase   : s.phase = .idle
  resp    : s.resp = some ⟨.transportFailure, []⟩
  calls   : s.calls = s₀.calls ++ s₀.sends ((planFrames s₀.binding.cap start data).take (j + 1))
  chip    : ChipPartial s₀ start data j s.chip

theorem answered_fail {s₀ s : State} {start : Byte} {data : List Byte} {j : Nat} (hcap : 2 ≤ s₀.binding.cap)
    (h : WriteWaiting s₀ start data j s) (hj : j < frameCount s₀.binding.cap data.length) :
    WriteFailed s₀ start data j (s.answered (.write data) .fail) := by
  have hd := (frameCount_spec hcap).mp hj
  refine ⟨h.binding, h.life, h.op, h.port, h.n, h.cur, h.ptr, rfl, rfl, rfl, h.calls, ?_⟩
  intro hin c
  have hlen : s.chunkLen = min (s₀.binding.cap - 1) (data.length - j * (s₀.binding.cap - 1)) := by
    rw [State.chunkLen, h.binding, h.n, h.cur]
  have hchunk : (s.chunk data).length = s.chunkLen := chunk_length h.n
  have hsum : min ((j + 1) * (s₀.binding.cap - 1)) data.length = j * (s₀.binding.cap - 1) + s.chunkLen := by
    rw [hlen, Nat.add_mul]; omega
  have hptr : s.ptr.toNat = start.toNat + j * (s₀.binding.cap - 1) := by
    rw [h.ptr, BitVec.toNat_add, BitVec.toNat_ofNat]
    simp only [mappedSize] at hin
    omega
  have hread : (s.answered (.write data) .fail).chip.read c = _ :=
    Memory.read_frameFailed (m := s.chip) (a := s.ptr) (bs := s.chunk data) s.draws (by rw [hchunk, hptr]; omega) c
  rw [hchunk, hptr, h.chip hin] at hread
  rw [hread, hsum]
  refine ⟨fun h1 => ?_, fun h1 => ?_, fun h1 => ?_⟩
  · rw [if_neg (by omega), if_pos h1]
  · rw [if_pos (by omega)]
    split
    · left
      rw [State.chunk, List.getElem?_take_of_lt (by omega), List.getElem?_drop, h.cur]
      congr 1
      omega
    · right
      rw [if_neg (by omega)]
  · rw [if_neg (by omega), if_neg (by omega)]

/-- The whole Write, frame `j` the first to fail (R133). -/
theorem planWrite_fails {s₀ : State} {start : Byte} {data : List Byte} {j : Nat} (rest : List Input) (hcap : 2 ≤ s₀.binding.cap)
    (hfit : data.length ≤ 255) (hj : j < frameCount s₀.binding.cap data.length) :
    ∃ u, WriteFailed s₀ start data j u ∧
      settle (oks j (.answer .fail :: rest)) (s₀.planWrite start data) = .next { u with inputs := rest } := by
  rcases planWrite_begins (start := start) hcap hfit with ⟨hlt, hw⟩ | ⟨heq, _⟩
  · rcases settle_oks (.answer .fail :: rest) hcap hw (m := j) (by omega) hlt with ⟨_, u, hu, hs⟩ | ⟨heq, _⟩
    · rw [Nat.zero_add] at hu
      have hf := answered_fail hcap hu hj
      refine ⟨_, hf, ?_⟩
      rw [hs, settle_answer _ _ hu.pending rfl, settle_done _ hf.pending]
    · omega
  · omega

end Sys2Proof.Machine
end

