-- ==== Sys2Proof/Laws/Exec.lean ====
section
/-! SUPPORT. What `exec` can do, said once: every outcome of every request is one of the cases of `exec_cases`; and what an answer keeps. -/

namespace Sys2Proof.Machine

/-- How a request begins, by its kind. Every case names the whole outcome. -/
inductive ExecCase (i : Instr) (s : State) : Prop where
  /-- Refused: a bus request in UNINIT (R224). -/
  | notReady (hop : i.opcode.byte ∈ writeOps ++ readOps) (hl : s.life ≠ .ready) (h : exec i s = .refused .notReady)
  /-- Refused: a BCD encode outside its domain (R111, R113). -/
  | bcdDomain (v : Byte) (hv : ¬ bcdDomain v) (hi : i = .bcdenc v ∨ ∃ halt, i = .secenc v halt) (h : exec i s = .refused .bcdDomain)
  /-- Ended at once, with no call and no change of `LIFE`. -/
  | quiet (code : ResultCode) (payload : List Byte) (hp : code ≠ .success → payload = [])
      (h : exec i s = .next ((s.accept i.opcode).finish code payload))
  /-- INIT without a hook (R220). -/
  | madeReady (hi : i = .init) (hc : s.binding.complete)
      (h : exec i s = .next (({ s.accept .init with life := .ready }).succeed []))
  /-- DEINIT without a hook (R222). -/
  | madeUninit (hi : i = .deinit) (h : exec i s = .next (({ s.accept .deinit with life := .uninit }).succeed []))
  /-- A planner Write (R131). -/
  | write (start : Byte) (data : List Byte) (hl : s.life = .ready) (hop : i.opcode.byte ∈ writeOps)
      (hfit : i.wf = true → data.length ≤ 255)
      (h : exec i s = ((s.accept i.opcode).planWrite start data).run)
  /-- A planner Read (R136). -/
  | read (start count : Byte) (hl : s.life = .ready) (hop : i.opcode.byte ∈ readOps)
      (h : exec i s = ((s.accept i.opcode).planRead start count).run)
  /-- INIT with a hook (R220). -/
  | initHook (hi : i = .init) (hl : s.life = .uninit) (hc : s.binding.complete)
      (h : exec i s = ((s.accept .init).issue .initHook .initHook).run)
  /-- DEINIT with a hook (R222). -/
  | deinitHook (hi : i = .deinit) (hl : s.life = .ready) (h : exec i s = ((s.accept .deinit).issue .deinitHook .deinitHook).run)

theorem execInit_cases (s : State) : ExecCase .init s := by
  by_cases hl : s.life = .ready
  · exact .quiet .success [] (fun h => absurd rfl h) (if_pos hl)
  have hu : s.life = .uninit := by cases h : s.life <;> simp_all
  by_cases hp : (!s.binding.sendPresent || !s.binding.recvPresent) = true
  · refine .quiet .initError [] (fun _ => rfl) ?_
    show execInit s = _
    rw [execInit, if_neg hl, if_pos hp]; rfl
  by_cases hc : s.binding.cap < 2
  · refine .quiet .initError [] (fun _ => rfl) ?_
    show execInit s = _
    rw [execInit, if_neg hl, if_neg hp, if_pos hc]; rfl
  have hcomp : s.binding.complete := by
    simp only [Bool.or_eq_true, Bool.not_eq_eq_eq_not, Bool.not_true, not_or, Bool.not_eq_false] at hp
    exact ⟨hp.1, hp.2, by omega⟩
  by_cases hh : s.binding.initHook = true
  · refine .initHook rfl hu hcomp ?_
    show execInit s = _
    rw [execInit, if_neg hl, if_neg hp, if_neg hc, if_pos hh]
  · refine .madeReady rfl hcomp ?_
    show execInit s = _
    rw [execInit, if_neg hl, if_neg hp, if_neg hc, if_neg hh]

theorem execDeinit_cases (s : State) : ExecCase .deinit s := by
  by_cases hu : s.life = .uninit
  · exact .quiet .success [] (fun h => absurd rfl h) (if_pos hu)
  have hl : s.life = .ready := by cases h : s.life <;> simp_all
  by_cases hh : s.binding.deinitHook = true
  · refine .deinitHook rfl hl ?_
    show execDeinit s = _
    rw [execDeinit, if_neg hu, if_pos hh]
  · refine .madeUninit rfl ?_
    show execDeinit s = _
    rw [execDeinit, if_neg hu, if_neg hh]

/-- Every request, in every state. -/
theorem exec_cases (i : Instr) (s : State) : ExecCase i s := by
  cases i with
  | init => exact execInit_cases s
  | deinit => exact execDeinit_cases s
  | setdt dt halt =>
    by_cases hl : s.life = .ready
    · by_cases hv : validDt dt
      · refine .write 0 (timeBytes dt halt) hl (by simp [Instr.opcode]) (fun _ => by simp [timeBytes]) ?_
        show execSetdt dt halt s = _
        rw [execSetdt, if_pos hl, if_pos hv]; rfl
      · refine .quiet .invalidParameter [] (fun _ => rfl) ?_
        show execSetdt dt halt s = _
        rw [execSetdt, if_pos hl, if_neg hv]; rfl
    · exact .notReady (by simp [Instr.opcode]) hl (if_neg hl)
  | getdt =>
    by_cases hl : s.life = .ready
    · exact .read 0 7 hl (by simp [Instr.opcode]) (if_pos hl)
    · exact .notReady (by simp [Instr.opcode]) hl (if_neg hl)
  | wrram offset data =>
    by_cases hl : s.life = .ready
    · by_cases hv : ramOk offset data.length
      · refine .write (ramRegister offset) data hl (by simp [Instr.opcode]) (fun _ => by have := hv.2; omega) ?_
        show execWrram offset data s = _
        rw [execWrram, if_pos hl, if_pos hv]; rfl
      · refine .quiet .invalidParameter [] (fun _ => rfl) ?_
        show execWrram offset data s = _
        rw [execWrram, if_pos hl, if_neg hv]; rfl
    · exact .notReady (by simp [Instr.opcode]) hl (if_neg hl)
  | rdram offset size =>
    by_cases hl : s.life = .ready
    · by_cases hv : ramOk offset size.toNat
      · refine .read (ramRegister offset) size hl (by simp [Instr.opcode]) ?_
        show execRdram offset size s = _
        rw [execRdram, if_pos hl, if_pos hv]; rfl
      · refine .quiet .invalidParameter [] (fun _ => rfl) ?_
        show execRdram offset size s = _
        rw [execRdram, if_pos hl, if_neg hv]; rfl
    · exact .notReady (by simp [Instr.opcode]) hl (if_neg hl)
  | setow mode =>
    by_cases hl : s.life = .ready
    · cases hm : ctrlEnc mode with
      | some c =>
        refine .write 7 [c] hl (by simp [Instr.opcode]) (fun _ => by simp) ?_
        show execSetow mode s = _
        rw [execSetow, if_pos hl, hm]; rfl
      | none =>
        refine .quiet .invalidParameter [] (fun _ => rfl) ?_
        show execSetow mode s = _
        rw [execSetow, if_pos hl, hm]; rfl
    · exact .notReady (by simp [Instr.opcode]) hl (if_neg hl)
  | bcdenc v =>
    by_cases hv : bcdDomain v
    · exact .quiet .success [bcdEnc v] (fun h => absurd rfl h) (if_pos hv)
    · exact .bcdDomain v hv (.inl rfl) (if_neg hv)
  | bcddec b => exact .quiet .success [bcdDec b] (fun h => absurd rfl h) rfl
  | secenc v halt =>
    by_cases hv : bcdDomain v
    · exact .quiet .success [secEnc v halt] (fun h => absurd rfl h) (if_pos hv)
    · exact .bcdDomain v hv (.inr ⟨halt, rfl⟩) (if_neg hv)
  | secdec b => exact .quiet .success [secDec b] (fun h => absurd rfl h) rfl
  | ctrlenc mode =>
    cases hm : ctrlEnc mode with
    | some c =>
      refine .quiet .success [c] (fun h => absurd rfl h) ?_
      show execCtrlenc mode s = _
      rw [execCtrlenc, hm]; rfl
    | none =>
      refine .quiet .invalidParameter [] (fun _ => rfl) ?_
      show execCtrlenc mode s = _
      rw [execCtrlenc, hm]; rfl
  | adec a => exact .quiet .success [(adec a).1.byte, (adec a).2] (fun h => absurd rfl h) rfl
  | pwrite start data =>
    by_cases hl : s.life = .ready
    · exact .write start data hl (by simp [Instr.opcode]) (fun h => by simpa [Instr.wf, dataFits] using h) (if_pos hl)
    · exact .notReady (by simp [Instr.opcode]) hl (if_neg hl)
  | pread start count =>
    by_cases hl : s.life = .ready
    · exact .read start count hl (by simp [Instr.opcode]) (if_pos hl)
    · exact .notReady (by simp [Instr.opcode]) hl (if_neg hl)

end Sys2Proof.Machine
end

