-- ==== Sys2Proof/Laws/PerInstr.lean ====
section
/-! SUPPORT. Facts about every request as syntax, one lemma per constructor of Instr. -/

namespace Sys2Proof.Laws

/-- The encoding of a well-formed request begins with its opcode byte (R80) and has the length R84 gives. -/
def EncodedLength.Statement (i : Instr) : Prop :=
  i.wf = true → Opcode.ofByte ((encode i).getD 0 0) = some i.opcode ∧
    requestLength ((encode i).getD 0 0) ((encode i).getD 2 0) = some (encode i).length

theorem EncodedLength.init : EncodedLength.Statement .init := fun _ => ⟨rfl, rfl⟩
theorem EncodedLength.deinit : EncodedLength.Statement .deinit := fun _ => ⟨rfl, rfl⟩
theorem EncodedLength.setdt (dt : DateTime) (halt : Bool) : EncodedLength.Statement (.setdt dt halt) := fun _ => ⟨rfl, rfl⟩
theorem EncodedLength.getdt : EncodedLength.Statement .getdt := fun _ => ⟨rfl, rfl⟩
theorem EncodedLength.wrram (offset : Byte) (data : List Byte) : EncodedLength.Statement (.wrram offset data) := by
  intro h
  have h : data.length < 256 := by simp only [Instr.wf, dataFits, decide_eq_true_eq] at h; omega
  refine ⟨rfl, ?_⟩
  show some (3 + (BitVec.ofNat 8 data.length).toNat) = some (data.length + 2 + 1)
  rw [BitVec.toNat_ofNat, Nat.mod_eq_of_lt h]
  congr 1; omega
theorem EncodedLength.rdram (offset : Byte) (size : Byte) : EncodedLength.Statement (.rdram offset size) := fun _ => ⟨rfl, rfl⟩
theorem EncodedLength.setow (mode : Byte) : EncodedLength.Statement (.setow mode) := fun _ => ⟨rfl, rfl⟩
theorem EncodedLength.bcdenc (value : Byte) : EncodedLength.Statement (.bcdenc value) := fun _ => ⟨rfl, rfl⟩
theorem EncodedLength.bcddec (byte : Byte) : EncodedLength.Statement (.bcddec byte) := fun _ => ⟨rfl, rfl⟩
theorem EncodedLength.secenc (value : Byte) (halt : Bool) : EncodedLength.Statement (.secenc value halt) := fun _ => ⟨rfl, rfl⟩
theorem EncodedLength.secdec (byte : Byte) : EncodedLength.Statement (.secdec byte) := fun _ => ⟨rfl, rfl⟩
theorem EncodedLength.ctrlenc (mode : Byte) : EncodedLength.Statement (.ctrlenc mode) := fun _ => ⟨rfl, rfl⟩
theorem EncodedLength.adec (addr : Byte) : EncodedLength.Statement (.adec addr) := fun _ => ⟨rfl, rfl⟩
theorem EncodedLength.pwrite (start : Byte) (data : List Byte) : EncodedLength.Statement (.pwrite start data) := by
  intro h
  have h : data.length < 256 := by simp only [Instr.wf, dataFits, decide_eq_true_eq] at h; omega
  refine ⟨rfl, ?_⟩
  show some (3 + (BitVec.ofNat 8 data.length).toNat) = some (data.length + 2 + 1)
  rw [BitVec.toNat_ofNat, Nat.mod_eq_of_lt h]
  congr 1; omega
theorem EncodedLength.pread (start : Byte) (count : Byte) : EncodedLength.Statement (.pread start count) := fun _ => ⟨rfl, rfl⟩

end Sys2Proof.Laws
end

