-- ==== Sys2Proof/Laws/Step.lean ====
section
/-! SUPPORT. What a step does, by the host's next move: one lemma per way an IDLE or a BUSY engine moves. -/

namespace Sys2Proof.Machine

/-- The reset input is taken in every state in which it is the host's next move (R270). -/
theorem step_reset {s : State} {rest : List Input} (h : s.inputs = .reset :: rest) :
    step s = .next (State.engineReset { s with inputs := rest }) := by
  cases hp : s.phase <;> simp only [step, hp, idleStep, busyStep, h]

/-- The oldest held request of an IDLE engine. -/
theorem step_held {s : State} {bytes : List Byte} {rest : List (List Byte)} (hp : s.phase = .idle) (h : s.port = bytes :: rest)
    (hr : ∀ moves, s.inputs ≠ .reset :: moves) : step s = runRequest bytes { s with port := rest } := by
  simp only [step, hp, idleStep, h]


/-- A request that is the next move to an IDLE engine without held requests. -/
theorem step_request {s : State} {bytes : List Byte} {rest : List Input} (hp : s.phase = .idle) (h : s.port = [])
    (hi : s.inputs = .request bytes :: rest) : step s = runRequest bytes { s with inputs := rest } := by
  simp [step, hp, idleStep, h, hi]

/-- An answer to a BUSY engine. -/
theorem step_answer {s : State} {a : Answer} {rest : List Input} (hp : s.phase = .busy) (hi : s.inputs = .answer a :: rest) :
    step s = settle (.answer a :: rest) s := by
  simp [step, hp, busyStep, State.run, hi]

/-- An answer to a BUSY engine, by its outstanding call. -/
theorem step_answered {s : State} {a : Answer} {rest : List Input} {p : Pending} (hp : s.phase = .busy)
    (hi : s.inputs = .answer a :: rest) (hc : s.pending = some p) (hf : a.fits p.expects = true) :
    step s = settle rest (s.answered p a) := by
  rw [step_answer hp hi, settle_answer a rest hc hf]

/-- What the head of the remaining moves is once the resets that stand next are gone. -/
theorem dropWhile_isReset_ne (ins moves : List Input) : ins.dropWhile Input.isReset ≠ .reset :: moves := by
  induction ins with
  | nil => simp
  | cons i ins ih => cases i <;> simp [List.dropWhile, Input.isReset, ih]

end Sys2Proof.Machine
end

