-- ==== Sys2Proof/Tests/Slice0.lean ====
section
/-! SUPPORT. Tests of single steps against spec/95_test_vectors.md and the corner cases of the rules, decode tests against words written
from R81, R83 and R86, smoke tests of the checks, and for every statement with hypotheses a witness that meets them. -/

namespace Sys2Proof.Tests

open Sys2Proof.Machine Sys2Proof.Claims

/-! ### Helpers -/

/-- A READY engine with capacity `cap`, slave address 0x55, no hooks, and host moves `ins`. -/
def ready (cap : Nat) (ins : List Input) : State :=
  { State.reset with life := .ready, binding := ⟨0x55, cap, true, true, false, false⟩, inputs := ins }

/-- An UNINIT engine with configuration `b` and host moves `ins`. -/
def uninit (b : Binding) (ins : List Input) : State := { State.reset with binding := b, inputs := ins }

/-- The response bytes an outcome leaves in `RESP`; empty for no response, a fault or a refusal. -/
def respOf : StepOutcome → List Byte
  | .next s    => (s.resp.map Response.bytes).getD []
  | .fault _   => []
  | .refused _ => []

/-- The frames of the Sends that an outcome's calls hold. -/
def framesOf : StepOutcome → List (List Byte)
  | .next s    => s.calls.filterMap (fun c => match c with | .send _ f => some f | _ => none)
  | .fault _   => []
  | .refused _ => []

/-- One field of the next state; none for a fault or a refusal. -/
def after {α : Type} (f : State → α) : StepOutcome → Option α
  | .next s    => some (f s)
  | .fault _   => none
  | .refused _ => none

def ok : Input := .answer (.ok [])
def failed : Input := .answer .fail

/-! ### WellFormed: each check refuses an ill-formed term -/

theorem dataFits_replicate (k : Nat) (b : Byte) : dataFits (List.replicate k b) = decide (k ≤ 255) := by simp [dataFits]

theorem test_wrram_256_bytes_ill_formed : (Instr.wrram 0 (List.replicate 256 0)).wf = false := dataFits_replicate _ 0
theorem test_pwrite_256_bytes_ill_formed : (Instr.pwrite 0 (List.replicate 256 0)).wf = false := dataFits_replicate _ 0
theorem test_pwrite_255_bytes_well_formed : (Instr.pwrite 0 (List.replicate 255 0)).wf = true := dataFits_replicate _ 0

/-! ### Decode: bytes from R81, R83, R86 and the examples of the family files -/

theorem test_decode_init : decode [0x01] = .ok .init := by decide
theorem test_decode_deinit : decode [0x02] = .ok .deinit := by decide
theorem test_decode_setdt : decode [0x03, 0x3A, 0x3B, 0x17, 0x02, 0x1F, 0x0C, 0x18, 0x00]
    = .ok (.setdt ⟨58, 59, 23, 2, 31, 12, 24⟩ false) := by decide
theorem test_decode_getdt : decode [0x04] = .ok .getdt := by decide
theorem test_decode_wrram : decode [0x05, 0x32, 0x06, 0x01, 0x02, 0x03, 0x04, 0x05, 0x06]
    = .ok (.wrram 50 [1, 2, 3, 4, 5, 6]) := by decide
theorem test_decode_rdram : decode [0x06, 0x35, 0x03] = .ok (.rdram 53 3) := by decide
theorem test_decode_setow : decode [0x07, 0x05] = .ok (.setow 5) := by decide
theorem test_decode_bcdenc : decode [0x10, 0x2F] = .ok (.bcdenc 47) := by decide
theorem test_decode_bcddec : decode [0x11, 0x59] = .ok (.bcddec 0x59) := by decide
theorem test_decode_secenc : decode [0x12, 0x3B, 0x01] = .ok (.secenc 59 true) := by decide
theorem test_decode_secdec : decode [0x13, 0xD9] = .ok (.secdec 0xD9) := by decide
theorem test_decode_ctrlenc : decode [0x14, 0x02] = .ok (.ctrlenc 2) := by decide
theorem test_decode_adec : decode [0x15, 0x3D] = .ok (.adec 0x3D) := by decide
theorem test_decode_pwrite : decode [0x16, 0x08, 0x05, 0x01, 0x02, 0x03, 0x04, 0x05]
    = .ok (.pwrite 8 [1, 2, 3, 4, 5]) := by decide
theorem test_decode_pread : decode [0x17, 0x20, 0x00] = .ok (.pread 0x20 0) := by decide

theorem test_decode_empty : decode [] = .error .noRequest := by decide
theorem test_decode_reserved : decode [0x08] = .error .illegalOp ∧ decode [0x18, 0x00] = .error .illegalOp := by decide
theorem test_decode_extra_byte : decode [0x04, 0x00] = .error .malformed := by decide
theorem test_decode_short_data : decode [0x16, 0x00, 0x02, 0xAA] = .error .malformed := by decide
theorem test_decode_reserved_flag : decode [0x12, 0x05, 0x02] = .error .malformed := by decide
theorem test_table_word_zero_operands : decodeTableWord 8 0x03 = some (.setdt ⟨0, 0, 0, 0, 0, 0, 0⟩ false) := by decide
theorem test_table_word_data : decodeTableWord 24 0x021016 = some (.pwrite 0x10 [0, 0]) := by decide

/-! ### Assembler (R96) -/

theorem test_asm_setdt_halt : Assembler.assemble
    ['S', 'E', 'T', 'D', 'T', ' ', '0', ',', ' ', '0', ',', '0', ',', '1', ',', '1', ',', '1', ',', '0', ',', 'H', 'A', 'L', 'T', ';', 'x']
    = some [0x03, 0, 0, 0, 1, 1, 1, 0, 0x01] := by decide
theorem test_asm_data_list : Assembler.assemble
    (['P', 'W', 'R', 'I', 'T', 'E', ' ', '0', 'x', '1', '0', ',', ' ', '2', ',', ' ', Assembler.openBrace, '1', ',', '0', 'x', 'f', 'F', Assembler.closeBrace])
    = some [0x16, 0x10, 0x02, 0x01, 0xFF] := by decide
theorem test_asm_raw_mode : Assembler.assemble ['S', 'E', 'T', 'O', 'W', ' ', '#', '6'] = some [0x07, 0x06] := by decide

/-! ### Codec (95_test_vectors.md 2.1) -/

theorem test_bcdenc_99 : respOf (exec (.bcdenc 99) State.reset) = [0x00, 0x99] := by decide
theorem test_bcdenc_100_refused : after (fun _ => ()) (exec (.bcdenc 100) State.reset) = none := by decide
theorem test_bcddec_ff : respOf (exec (.bcddec 0xFF) State.reset) = [0x00, 0xA5] := by decide
theorem test_bcddec_1f : respOf (exec (.bcddec 0x1F) State.reset) = [0x00, 0x19] := by decide
theorem test_secenc_80 : respOf (exec (.secenc 80 false) State.reset) = [0x00, 0x00] := by decide
theorem test_secenc_59_halt : respOf (exec (.secenc 59 true) State.reset) = [0x00, 0xD9] := by decide
theorem test_secdec_d9 : respOf (exec (.secdec 0xD9) State.reset) = [0x00, 0x3B] := by decide
theorem test_secdec_ff : respOf (exec (.secdec 0xFF) State.reset) = [0x00, 0x55] := by decide

/-! ### Planner (2.2) -/

theorem test_pwrite_wraps : framesOf (exec (.pwrite 0xFE [7, 8, 9]) (ready 2 [ok, ok, ok])) = [[0xFE, 7], [0xFF, 8], [0x00, 9]] := by decide
theorem test_pwrite_second_fails :
    (fun o => (respOf o, framesOf o)) (exec (.pwrite 0x10 [0, 1, 2, 3, 4, 5, 6, 7, 8]) (ready 4 [ok, failed]))
      = ([0x02], [[0x10, 0, 1, 2], [0x13, 3, 4, 5]]) := by decide
theorem test_pread_one : respOf (exec (.pread 0x07 1) (ready 2 [ok, .answer (.ok [0x13])])) = [0x00, 0x13] := by decide
theorem test_pread_receive_fails : respOf (exec (.pread 0x00 7) (ready 2 [ok, failed])) = [0x02] := by decide

/-! ### Clock (2.3) -/

theorem test_setdt_one_frame :
    framesOf (exec (.setdt ⟨59, 59, 23, 7, 31, 12, 99⟩ false) (ready 9 [ok])) = [[0x00, 0x59, 0x59, 0x23, 0x07, 0x31, 0x12, 0x99]] := by decide
theorem test_setdt_hour_24 :
    (fun o => (respOf o, framesOf o)) (exec (.setdt ⟨0, 0, 24, 1, 1, 1, 0⟩ false) (ready 9 [ok])) = ([0x01], []) := by decide
theorem test_getdt_decodes :
    respOf (exec .getdt (ready 9 [ok, .answer (.ok [0xD9, 0x59, 0x23, 0x07, 0x31, 0x12, 0x99])])) = [0x00, 59, 59, 23, 7, 31, 12, 99] := by decide
theorem test_getdt_not_bcd :
    respOf (exec .getdt (ready 9 [ok, .answer (.ok [0x7F, 0xFF, 0x3F, 0x00, 0x00, 0x00, 0xFF])])) = [0x00, 85, 165, 45, 0, 0, 0, 165] := by decide

/-! ### RAM window (2.4, P2) -/

theorem test_wrram_chunks :
    framesOf (exec (.wrram 50 [0x11, 0x22, 0x33, 0x44, 0x55, 0x66]) (ready 4 [ok, ok])) = [[0x3A, 0x11, 0x22, 0x33], [0x3D, 0x44, 0x55, 0x66]] := by decide
theorem test_wrram_past_window : respOf (exec (.wrram 50 [1, 2, 3, 4, 5, 6, 7]) (ready 9 [])) = [0x01] := by decide
theorem test_rdram_no_wrap : respOf (exec (.rdram 255 2) (ready 9 [])) = [0x01] := by decide
theorem test_rdram_reads : respOf (exec (.rdram 0 2) (ready 9 [ok, .answer (.ok [0xAB, 0xCD])])) = [0x00, 0xAB, 0xCD] := by decide

/-! ### Control encoder, output wave, address decoder (2.5, 2.6) -/

theorem test_ctrlenc_high : respOf (exec (.ctrlenc 1) State.reset) = [0x00, 0x80] := by decide
theorem test_ctrlenc_6 : respOf (exec (.ctrlenc 6) State.reset) = [0x01] := by decide
theorem test_setow_1hz : framesOf (exec (.setow 2) (ready 2 [ok])) = [[0x07, 0x10]] := by decide
theorem test_setow_6 : respOf (exec (.setow 6) (ready 2 [])) = [0x01] := by decide
theorem test_adec_ram_end : respOf (exec (.adec 0x3F) State.reset) = [0x00, 0x02, 0x37] := by decide
theorem test_adec_unmapped : respOf (exec (.adec 0x40) State.reset) = [0x00, 0x03, 0x00] := by decide

/-! ### Lifecycle (2.7) -/

theorem test_init_no_receive : respOf (exec .init (uninit ⟨0x55, 9, true, false, false, false⟩ [])) = [0x03] := by decide
theorem test_init_hook_ok :
    after (fun s => (s.life, s.calls)) (exec .init (uninit ⟨0x55, 2, true, true, true, false⟩ [ok])) = some (.ready, [.initHook]) := by decide
theorem test_deinit_hook_fails :
    after (fun s => (s.life, s.resp)) (exec .deinit { ready 2 [failed] with binding := ⟨0x55, 2, true, true, false, true⟩ })
      = some (.uninit, some ⟨.transportFailure, []⟩) := by decide
theorem test_getdt_uninit_refused : after (fun _ => ()) (exec .getdt State.reset) = none := by decide

/-! ### The step and the ports -/

theorem test_reset_waits : step State.reset = .next State.reset := rfl
theorem test_step_takes_request :
    respOf (step { State.reset with inputs := [.request [0x15, 0x3A]] }) = [0x00, 0x02, 0x32] := by decide
theorem test_fetch_word_runs : respOf (step (State.reset.withFetchWord 16 0x3B10)) = [0x00, 0x59] := by decide
theorem test_bus_request_waits : after (fun s => (s.phase, s.calls)) (step { ready 9 [] with port := [[0x04]] })
    = some (.busy, [.send 0x55 [0x00]]) := by decide

/-! ### Witnesses: for each statement with hypotheses, a state and operands that meet them together -/

/-- The operands of P1 of 95_test_vectors.md. -/
def p1 : DateTime := ⟨30, 15, 9, 3, 14, 2, 24⟩

/-- A state that waits for the answer to the second frame of a Write. -/
def waiting (ins : List Input) : State :=
  { ready 3 ins with
    phase := .busy, op := 0x05, ptr := 0x0A, cur := 2, n := 4, pending := some (.write [1, 2, 3, 4]),
    calls := [.send 0x55 [0x08, 1, 2], .send 0x55 [0x0A, 3, 4]], chip := [(8, 1), (9, 2)] }

theorem waiting_inv : (waiting []).Inv where
  readyBound _ := by decide
  callWhileBusy := by decide
  pendingFits p h := by
    cases h
    show _ ∧ _ ∧ _ ∧ _ ∧ _
    exact ⟨rfl, by decide, by decide, rfl, rfl⟩
  failureBare r h := by cases h
  chipOk := by decide

theorem witness_IdleStepRunsTheDecodedRequest_held :
    Takes { ready 9 [.bind Binding.unbound] with port := [[0x04], [0x02]] } [0x04] { ready 9 [.bind Binding.unbound] with port := [[0x02]] }
      ∧ decode [0x04] = .ok .getdt :=
  ⟨⟨rfl, .inl ⟨[[0x02]], rfl, (fun _ h => by cases h), rfl⟩⟩, by decide⟩
theorem witness_IdleStepRunsTheDecodedRequest_move :
    Takes (ready 9 [.request [0x04], ok]) [0x04] (ready 9 [ok]) ∧ decode [0x04] = .ok .getdt :=
  ⟨⟨rfl, .inr ⟨[ok], rfl, rfl, rfl⟩⟩, by decide⟩
theorem witness_PresentedTableWordRunsNext : decodeTableWord 8 0x04 = some .getdt := by decide
theorem witness_DecodeInvertsEncode : (Instr.wrram 50 [1, 2]).wf = true := by decide
theorem witness_EncodeInvertsDecode : decode [0x05, 0x32, 0x02, 0x01, 0x02] = .ok (.wrram 50 [1, 2]) := by decide
theorem witness_ReservedOpcodesRefused :
    (0x08 ≤ (0x0F : Byte).toNat ∧ (0x0F : Byte).toNat ≤ 0x0F) ∧ 0x18 ≤ (0x18 : Byte).toNat ∧ (0x00 : Byte).toNat = 0
      ∧ Takes (ready 9 [.request [0x0F, 1]]) [0x0F, 1] (ready 9 []) :=
  ⟨by decide, by decide, by decide, rfl, .inr ⟨[], rfl, rfl, rfl⟩⟩
theorem witness_RequestAcceptedExactlyByLengthAndFlags_accepted :
    requestLength 0x12 ([0x12, 0x05, 0x01].getD 2 0) = some 3 ∧ ([0x12, 0x05, 0x01] : List Byte).length = 3
      ∧ (([0x05, 0x01] : List Byte).getD 1 0).toNat ≤ 1 := by decide
theorem witness_RequestAcceptedExactlyByLengthAndFlags_rejected :
    requestLength 0x16 ([0x16, 0x00, 0x02, 0xAA].getD 2 0) = some 5 ∧ ([0x16, 0x00, 0x02, 0xAA] : List Byte).length ≠ 5
      ∧ 1 < (([0x05, 0x02] : List Byte).getD 1 0).toNat := by decide
theorem witness_RequestPortRejections :
    Takes (ready 9 [.request [0x04, 0x00]]) [0x04, 0x00] (ready 9 []) ∧ decode [0x04, 0x00] = .error .malformed
      ∧ Takes (ready 9 [.request []]) [] (ready 9 []) :=
  ⟨⟨rfl, .inr ⟨[], rfl, rfl, rfl⟩⟩, by decide, rfl, .inr ⟨[], rfl, rfl, rfl⟩⟩
theorem witness_AssembledLinesAreRequests :
    Assembler.line ['G', 'E', 'T', 'D', 'T'] = some .getdt ∧ Assembler.Numeral ['2', '5', '5'] 255 ∧ Assembler.Numeral ['0', 'x', 'f', 'f'] 255
      ∧ List.Forall₂ Assembler.Numeral [['0'], ['9']] [0, 9] ∧ ([0, 9] : List Byte).length = (2 : Byte).toNat
      ∧ List.Forall₂ Assembler.Numeral [['5', '9'], ['0'], ['0'], ['7'], ['1'], ['1'], ['9', '9']] (fields ⟨59, 0, 0, 7, 1, 1, 99⟩) :=
  ⟨by decide, .inl (by decide), .inr (by decide),
    .cons (.inl (by decide)) (.cons (.inl (by decide)) .nil), by decide,
    .cons (.inl (by decide)) (.cons (.inl (by decide)) (.cons (.inl (by decide)) (.cons (.inl (by decide)) (.cons (.inl (by decide))
      (.cons (.inl (by decide)) (.cons (.inl (by decide)) .nil))))))⟩
theorem witness_StepKeepsInvariant : (waiting []).Inv ∧ step (waiting []) = .next (waiting []) := ⟨waiting_inv, rfl⟩
theorem witness_OnlyLifecycleRequestsChangeLife_ready :
    after State.life (step (uninit ⟨0x55, 9, true, true, false, false⟩ [.request [0x01]])) = some .ready := by decide
theorem witness_OnlyLifecycleRequestsChangeLife_uninit :
    after State.life (step (waiting [.reset])) = some .uninit ∧ after State.life (step (ready 9 [.request [0x02]])) = some .uninit := by decide
theorem witness_ResetInputAbandonsTheOperation :
    (waiting [.reset]).inputs = .reset :: [] ∧ (waiting [.reset]).phase = .busy
      ∧ (waiting [.reset]).pending = some (.write [1, 2, 3, 4])
      ∧ (waiting [.reset]).ptr.toNat + ((waiting [.reset]).chunk [1, 2, 3, 4]).length ≤ 64 := by decide
theorem witness_ResetInputAbandonsTheOperation_held :
    ({ ready 9 [.reset] with port := [[0x04]] } : State).inputs = .reset :: []
      ∧ after (fun s => (s.life, s.port, s.calls)) (step { ready 9 [.reset] with port := [[0x04]] }) = some (.uninit, [[0x04]], []) := by decide
theorem witness_BcdencPacksDigits : (99 : Byte).toNat ≤ 99 ∧ 100 ≤ (100 : Byte).toNat := by decide
theorem witness_SecencForcesHaltBit : (99 : Byte).toNat ≤ 99 ∧ 100 ≤ (100 : Byte).toNat := by decide
theorem witness_CodecRoundTrips :
    after State.resp (exec (.bcdenc 59) State.reset) = some (some ⟨.success, [0x59]⟩)
      ∧ after State.resp (exec (.secenc 79 true) State.reset) = some (some ⟨.success, [0xF9]⟩) ∧ (79 : Byte).toNat ≤ 79
      ∧ after State.resp (exec (.bcddec 0x99) State.reset) = some (some ⟨.success, [99]⟩)
      ∧ (0x99 : Byte).toNat / 16 ≤ 9 ∧ (0x99 : Byte).toNat % 16 ≤ 9 := by decide
theorem witness_CtrlencLooksUpMode : controlRow 5 = some 0x13 ∧ 6 ≤ (6 : Byte).toNat := by decide
theorem witness_AdecClassifiesRegister :
    (6 : Byte).toNat ≤ 6 ∧ (7 : Byte).toNat = 7 ∧ (0x3F : Byte).toNat = (55 : Byte).toNat + 8 ∧ 0x40 ≤ (0x40 : Byte).toNat := by decide
theorem witness_InitFollowsItsRule :
    (ready 9 []).life = .ready ∧ State.reset.life = .uninit ∧ ¬ State.reset.binding.complete
      ∧ (uninit ⟨0x55, 2, true, true, false, false⟩ []).binding.complete
      ∧ (uninit ⟨0x55, 2, true, true, true, false⟩ [ok]).binding.complete
      ∧ (uninit ⟨0x55, 2, true, true, true, false⟩ [failed]).inputs = failed :: [] := by decide
theorem witness_DeinitFollowsItsRule :
    State.reset.life = .uninit ∧ (ready 9 [ok]).life = .ready ∧ (ready 9 [ok]).binding.deinitHook = false
      ∧ ({ ready 2 [failed] with binding := ⟨0x55, 2, true, true, false, true⟩ } : State).binding.deinitHook = true := by decide
theorem witness_RefusalsAreExactlyTheListed : IsBus .getdt ∧ State.reset.life ≠ .ready ∧ 100 ≤ (100 : Byte).toNat :=
  ⟨trivial, by decide, by decide⟩
theorem witness_SetdtFollowsItsRule :
    (ready 2 []).life = .ready ∧ 2 ≤ (ready 2 []).binding.cap ∧ FieldsInRange ⟨59, 59, 23, 7, 31, 12, 99⟩
      ∧ ¬ FieldsInRange ⟨59, 59, 24, 7, 31, 12, 99⟩
      ∧ (ready 2 (oks 7 [])).inputs = oks (frameCount 2 (registerImage p1 false).length) []
      ∧ 6 < frameCount 2 (registerImage p1 false).length := by decide
theorem witness_SetdtRejectsExactlyOutOfRange :
    (ready 2 []).life = .ready ∧ ¬ FieldsInRange ⟨60, 0, 0, 1, 1, 1, 0⟩ ∧ ¬ FieldsInRange ⟨0, 0, 0, 0, 1, 1, 0⟩ ∧ FieldsInRange p1
      ∧ after State.phase (exec (.setdt ⟨0, 0, 0, 8, 1, 1, 0⟩ false) (ready 2 [])) = some .idle := by decide
theorem witness_SetdtIsOneFrameAtLargeCap :
    (ready 8 [ok]).life = .ready ∧ 8 ≤ (ready 8 [ok]).binding.cap ∧ FieldsInRange p1 ∧ (ready 8 [ok]).inputs = ok :: [] := by decide
theorem witness_GetdtFollowsItsRule :
    (ready 2 []).life = .ready ∧ State.reset.life = .uninit ∧ ([1, 2, 3, 4, 5, 6, 7] : List Byte).length = (7 : Byte).toNat := by decide
theorem witness_GetdtNeverPartiallyDecoded :
    after (fun s => (s.phase, s.resp)) (exec .getdt (ready 2 [ok, failed])) = some (.idle, some ⟨.transportFailure, []⟩)
      ∧ after (fun s => (s.phase, s.resp)) (exec .getdt (ready 2 [failed])) = some (.idle, some ⟨.transportFailure, []⟩)
      ∧ after State.phase (exec .getdt (ready 2 [ok, .answer (.ok [1, 2, 3, 4, 5, 6, 7])])) = some .idle := by decide
/-- A state that waits for the answer to GETDT's Receive. -/
def waitingRead (ins : List Input) : State :=
  { ready 2 ins with
    phase := .busy, op := 0x04, pending := some (.receive 7), calls := [.send 0x55 [0x00], .receive 0x55 7] }
theorem witness_GetdtNeverPartiallyDecoded_later : (waitingRead [failed]).Inv ∧ (waitingRead [failed]).phase = .busy
    ∧ (waitingRead [failed]).op = 0x04 ∧ (waitingRead [failed]).inputs = .answer .fail :: [] :=
  ⟨⟨(fun _ => by decide), by decide, (fun p h => by cases h; exact ⟨rfl, by decide, rfl⟩), (fun r h => by cases h), by decide⟩, rfl, rfl, rfl⟩
theorem witness_GetdtValuesBounded :
    after (fun s => (s.phase, s.resp)) (exec .getdt (ready 2 [ok, .answer (.ok [0xFF, 0xFF, 0, 0, 0, 0, 0])]))
      = some (.idle, some ⟨.success, [85, 165, 0, 0, 0, 0, 0]⟩) := by decide
theorem witness_SetdtThenGetdtReadsBack :
    (ready 9 (oks 1 [])).life = .ready ∧ FieldsInRange p1 ∧ (ready 9 (oks 1 [])).inputs = oks (frameCount 9 7) []
      ∧ after (fun s => (List.range 7).map s.chip.read) (exec (.setdt p1 true) (ready 9 (oks 1 [])))
        = some [some 0xB0, some 0x15, some 0x09, some 0x03, some 0x14, some 0x02, some 0x24] := by decide
theorem witness_WrramFollowsItsRule :
    (ready 9 []).life = .ready ∧ 1 ≤ ([1, 2, 3, 4, 5, 6] : List Byte).length ∧ (50 : Byte).toNat + 6 ≤ 56 ∧ 56 < (50 : Byte).toNat + 7 := by decide
theorem witness_RdramFollowsItsRule :
    (ready 9 []).life = .ready ∧ (0 : Byte).toNat = 0 ∧ 56 < (255 : Byte).toNat + (2 : Byte).toNat
      ∧ 1 ≤ (1 : Byte).toNat ∧ (55 : Byte).toNat + (1 : Byte).toNat ≤ 56 := by decide
theorem witness_RamRequestsAreThinWrappers :
    (ready 9 []).life = .ready ∧ 1 ≤ ([1] : List Byte).length ∧ (55 : Byte).toNat + 1 ≤ 56 ∧ 1 ≤ (56 : Byte).toNat := by decide
theorem witness_WrramThenRdramReadsBack :
    (ready 4 (oks 2 [])).inputs = oks (frameCount 4 6) []
      ∧ after (fun s => (s.chip.read 0x3A, s.chip.read 0x3F)) (exec (.wrram 50 [1, 2, 3, 4, 5, 6]) (ready 4 (oks 2 [])))
        = some (some 1, some 6) := by decide
theorem witness_SetowFollowsItsRule :
    (ready 2 [ok]).life = .ready ∧ 2 ≤ (ready 2 [ok]).binding.cap ∧ controlRow 0 = some 0x00 ∧ 6 ≤ (255 : Byte).toNat
      ∧ (ready 2 [ok]).inputs = oks (frameCount 2 1) [] := by decide
theorem witness_SetowOverwritesWholeControlByte :
    (ready 2 [ok]).life = .ready ∧ 2 ≤ (ready 2 [ok]).binding.cap ∧ controlRow 5 = some 0x13
      ∧ after State.calls (exec (.setow 5) (ready 2 [ok])) = some [.send 0x55 [0x07, 0x13]]
      ∧ after State.calls (exec (.setow 0) (ready 2 [.reset])) = some [.send 0x55 [0x07, 0x00]] := by decide
theorem witness_PwriteIssuesThePlannedFrames :
    (ready 3 (oks 4 [])).life = .ready ∧ ([0, 1, 2, 3, 4, 5, 6] : List Byte).length ≤ 255
      ∧ (ready 3 (oks 4 [])).inputs = oks (frameCount 3 7) [] := by decide
theorem witness_FailedSendStopsTheWrite :
    1 < frameCount 4 9 ∧ (ready 4 [ok, failed]).inputs = oks 1 (.answer .fail :: []) := by decide
theorem witness_EmptyPwriteIssuesNoSend : (ready 2 [ok]).life = .ready := by decide
theorem witness_PreadFollowsItsRule : (ready 2 []).life = .ready ∧ State.reset.life = .uninit := by decide
theorem witness_ReadIsOneSendThenOneReceive :
    (ready 2 [.reset]).life = .ready ∧ StartsRead .getdt 0x00 7 ∧ StartsRead (.rdram 55 1) 0x3F 1 ∧ StartsRead (.pread 0xFF 0) 0xFF 0
      ∧ NoAnswerNext (ready 2 [.reset]).inputs ∧ NoAnswerNext [] ∧ ([] : List Byte).length = (0 : Byte).toNat :=
  ⟨rfl, .inl ⟨rfl, rfl, rfl⟩, .inr (.inl ⟨55, rfl, by decide, by decide, by decide⟩), .inr (.inr rfl),
    (fun _ _ h => by cases h), (fun _ _ h => by cases h), rfl⟩
/-- A state that waits for the answer to PREAD's positioning Send. -/
def waitingPosition (ins : List Input) : State :=
  { ready 2 ins with phase := .busy, op := 0x17, pending := some (.position 9 2), calls := [.send 0x55 [0x09]] }

theorem witness_PositioningSendSetsTheChipPointer :
    (waitingPosition [ok, .reset]).phase = .busy ∧ (waitingPosition [ok, .reset]).pending = some (.position 9 2)
      ∧ (waitingPosition [ok, .reset]).inputs = .answer (.ok []) :: [.reset] ∧ NoAnswerNext [.reset]
      ∧ after State.chipPtr (step { waitingPosition [ok] with pending := some (.position 0x3F 1) }) = some 0x3F ∧ ¬ (0x40 : Byte).toNat ≤ 0x3F :=
  ⟨rfl, rfl, rfl, (fun _ _ h => by cases h), by decide, by decide⟩
theorem witness_CapAbove256BehavesAs256 : (Instr.pwrite 0 (List.replicate 255 0)).wf = true ∧ 256 ≤ 300 := ⟨dataFits_replicate _ 0, by decide⟩
theorem witness_IssuedFramesFitTheCapacity :
    2 ≤ (ready 2 [ok]).binding.cap ∧ after State.calls (exec (.pwrite 5 [9]) (ready 2 [ok])) = some [.send 0x55 [5, 9]] := by decide
theorem witness_ReadingRequestsFrame : after State.phase (exec (.pread 5 1) (ready 2 [ok, .answer (.ok [9])])) = some .idle := by decide
theorem witness_WritingRequestsFrame :
    after State.phase (exec (.pwrite 0x3F [9]) (ready 2 [failed])) = some .idle ∧ (0x3F : Byte).toNat + 1 ≤ 64 := by decide
theorem witness_RequestEndsOrWaits :
    after State.phase (exec .getdt (ready 2 [])) = some .busy ∧ after State.phase (exec .getdt (ready 2 [failed])) = some .idle := by decide
theorem witness_InvalidParameterTouchesNoBus :
    after (fun s => (s.phase, s.resp)) (exec (.rdram 0 0) (ready 2 [ok])) = some (.idle, some ⟨.invalidParameter, []⟩)
      ∧ (ready 2 [ok]).life = .ready ∧ (⟨0, 0, 24, 1, 1, 1, 0⟩ : DateTime).hour = 24 := by decide
theorem witness_UnansweredCallLeavesBusy :
    NoAnswerNext (ready 2 [.reset]).inputs ∧ (ready 2 [.reset]).life = .ready ∧ 2 ≤ (ready 2 [.reset]).binding.cap
      ∧ StartsWrite (.setdt p1 true) 0x00 (registerImage p1 true) ∧ StartsWrite (.wrram 55 [9]) 0x3F [9]
      ∧ StartsWrite (.setow 5) 0x07 [0x13] ∧ StartsWrite (.pwrite 0xFF [9]) 0xFF [9] ∧ StartsRead (.rdram 0 56) 0x08 56 :=
  ⟨(fun _ _ h => by cases h), rfl, by decide, .inl ⟨p1, true, rfl, by decide, rfl, rfl⟩,
    .inr (.inl ⟨55, rfl, by decide, by decide, by decide⟩), .inr (.inr (.inl ⟨5, 0x13, rfl, by decide, rfl, rfl⟩)),
    .inr (.inr (.inr ⟨rfl, by decide, by decide⟩)), .inr (.inl ⟨0, rfl, by decide, by decide, by decide⟩)⟩
theorem witness_UnansweredCallLeavesBusy_hooks :
    (uninit ⟨0x55, 2, true, true, true, false⟩ []).binding.complete ∧ (uninit ⟨0x55, 2, true, true, true, false⟩ []).binding.initHook = true
      ∧ ({ ready 2 [] with binding := ⟨0x55, 2, true, true, false, true⟩ } : State).binding.deinitHook = true
      ∧ (waiting []).phase = .busy ∧ (waiting []).inputs = [] := by decide
theorem witness_NoCallBeforeThePreviousAnswer : after State.phase (step (waiting [ok])) = some .idle := by decide
theorem witness_BusyPortHoldsTheRequest :
    (waiting [.request [0x04]]).phase = .busy ∧ (waiting [.request [0x04]]).inputs = .request [0x04] :: [] := by decide
theorem witness_BindingOnlyWhileUninitAndIdle :
    (uninit Binding.unbound [.bind ⟨0, 9, true, true, false, false⟩]).life = .uninit ∧ (ready 2 [.bind Binding.unbound]).life = .ready
      ∧ (waiting [.bind Binding.unbound]).phase = .busy
      ∧ after (fun s => (s.binding.cap, s.chip)) (step { uninit Binding.unbound [.bind ⟨0, 9, true, true, false, false⟩] with chip := [(8, 1)] })
        = some (9, [(8, 1)])
      ∧ after (fun s => (s.binding.cap, s.chip)) (step { uninit Binding.unbound [.bind ⟨5, 9, true, true, false, false⟩] with chip := [(8, 1)] })
        = some (9, []) := by decide
theorem witness_AnswersOutsideTheContractStop :
    (ready 2 [ok]).phase = .idle ∧ (waiting [.answer (.ok [1])]).pending = some (.write [1, 2, 3, 4])
      ∧ (waitingRead [.answer (.ok [1])]).pending = some (.receive 7) ∧ ([1] : List Byte).length ≠ (7 : Byte).toNat := by decide
theorem witness_AnswersAtOnceOrLaterAgree :
    after State.phase (exec .getdt { ready 2 [] with inputs := [] }) = some .busy
      ∧ after State.phase (exec (.bcdenc 5) { ready 2 [] with inputs := [] }) = some .idle := by decide
theorem witness_AnswersAtOnceOrLaterAgree_later :
    (waiting []).Inv ∧ (waiting []).phase = .busy ∧ after State.phase (step { waiting [] with inputs := [ok] }) = some .idle
      ∧ after State.phase (step { waitingPosition [] with inputs := [ok] }) = some .busy
      ∧ step { waiting [] with inputs := [.answer (.ok [1])] } = .fault .answerLength :=
  ⟨waiting_inv, rfl, by decide, by decide, rfl⟩
theorem witness_EngineKeepsNoCopyOfTheChip :
    withoutChip (ready 2 [ok]) = withoutChip { ready 2 [ok] with chip := [(3, 1)], chipPtr := 7, draws := 2 }
      ∧ ∀ rest, (ready 2 [ok]).inputs ≠ .reset :: rest := ⟨by decide, fun _ h => by cases h⟩

end Sys2Proof.Tests
end

