-- ==== Sys2Proof/Proofs/PlannerRead.lean ====
section
/-! PROOF. The planner Read, call by call (R93, R136): how a reading request begins, and the two steps on the host's answers. -/

namespace Sys2Proof.Proofs

open Sys2Proof.Machine Sys2Proof.Claims

/-- The bias of +8 on the unbounded naturals is the bias on bytes (R53). -/
theorem ramRegister_eq_ofNat (offset : Byte) : ramRegister offset = BitVec.ofNat 8 (offset.toNat + 8) := by
  simp [ramRegister, BitVec.ofNat_add]

/-- Where the host's next move is no answer, the operation in flight stays as it is. -/
theorem run_noAnswer {s : State} (h : NoAnswerNext s.inputs) : s.run = .next s := settle_noAnswer h s

/-- In a READY engine each of the three reading requests is its planner Read. -/
theorem exec_startsRead {i : Instr} {start count : Byte} {s : State} (hlife : s.life = .ready) (hread : StartsRead i start count) :
    exec i s = ((s.accept i.opcode).planRead start count).run := by
  rcases hread with ⟨rfl, rfl, rfl⟩ | ⟨offset, rfl, hpos, hfits, rfl⟩ | rfl
  · exact if_pos hlife
  · rw [← ramRegister_eq_ofNat]
    exact (if_pos hlife).trans (if_pos ⟨hpos, hfits⟩)
  · exact if_pos hlife

/-- The positioning Send answered OK, and the Receive not yet answered: the step issues the Receive and waits (R136). -/
theorem step_positionOk {s : State} {start count : Byte} {rest : List Input} (hphase : s.phase = .busy)
    (hpending : s.pending = some (.position start count)) (hinputs : s.inputs = .answer (.ok []) :: rest) (hrest : NoAnswerNext rest) :
    step s = .next { (s.setPointer start).issue (.receive s.binding.slaveAddr count) (.receive count) with inputs := rest } := by
  rw [step_answered hphase hinputs hpending rfl, settle_noAnswer hrest]
  rfl

/-- The Receive answered with its `count` bytes: the step ends the request, whatever the host's next move is (R136). -/
theorem step_receiveOk {s : State} {count : Byte} {bytes : List Byte} {rest : List Input} (hphase : s.phase = .busy)
    (hpending : s.pending = some (.receive count)) (hinputs : s.inputs = .answer (.ok bytes) :: rest)
    (hlength : bytes.length = count.toNat) :
    step s = .next { s.losePointer.succeed (s.readPayload bytes) with inputs := rest } := by
  have hfits : (Answer.ok bytes).fits (Pending.receive count).expects = true := by
    simpa [Answer.fits, Pending.expects] using hlength
  rw [step_answered hphase hinputs hpending hfits, settle_done rest rfl]
  rfl

/-- Settles O42: the request waits on its positioning Send, `step_positionOk` issues the Receive, and `step_receiveOk` ends the request. -/
theorem readIsOneSendThenOneReceive : Obligations.ReadIsOneSendThenOneReceive := by
  intro i start count s hlife hread hinputs
  have hexec : exec i s = .next ((s.accept i.opcode).planRead start count) :=
    (exec_startsRead hlife hread).trans (run_noAnswer hinputs)
  refine ⟨_, hexec, rfl, rfl, fun later hlater => ?_⟩
  refine ⟨_, step_positionOk rfl rfl rfl hlater, rfl, rfl, fun bytes last hlength => ?_⟩
  exact ⟨_, step_receiveOk rfl rfl rfl hlength, rfl, rfl⟩

end Sys2Proof.Proofs
end

/-! PROOF. The range check of SETDT (R151): out of range it is the whole answer, and in range no answer of the host leads to InvalidParameter. -/

namespace Sys2Proof.Proofs

open Sys2Proof.Machine Sys2Proof.Claims

/-- No ended operation has left InvalidParameter in `RESP`; of a BUSY engine, whose `RESP` is an earlier operation's, nothing is said. -/
def NotEndedInvalid (s : State) : Prop := s.phase = .idle → ∀ r ∈ s.resp, r.code ≠ .invalidParameter

theorem notEndedInvalid_of_busy {s : State} (h : s.phase = .busy) : NotEndedInvalid s := by
  simp [NotEndedInvalid, h]

/-- An operation that ends with any other code has not ended with InvalidParameter. -/
theorem notEndedInvalid_finish {code : ResultCode} (h : code ≠ .invalidParameter) (payload : List Byte) (s : State) :
    NotEndedInvalid (s.finish code payload) := by
  simpa [NotEndedInvalid] using h

/-- The planner's loop waits on a Send, with phase and response as before, or ends with Success (R131). -/
theorem notEndedInvalid_sendNext {s : State} (h : NotEndedInvalid s) (data : List Byte) : NotEndedInvalid (s.sendNext data) := by
  by_cases hmore : s.cur.toNat < s.n.toNat
  · rw [sendNext_more hmore]; exact h
  · rw [sendNext_end hmore]; exact notEndedInvalid_finish (by decide) _ _

/-- Each answer ends the operation with Success, TransportFailure or InitError, or leaves it waiting on its next call. -/
theorem notEndedInvalid_answered {s : State} (h : NotEndedInvalid s) (p : Pending) (a : Answer) : NotEndedInvalid (s.answered p a) := by
  cases p <;> cases a
  case write.ok data _ =>
    have hadvance : NotEndedInvalid (s.chipFrameOk data).advance := by simpa [NotEndedInvalid] using h
    exact notEndedInvalid_sendNext hadvance data
  case position.ok start count _ => exact h
  all_goals exact notEndedInvalid_finish (by decide) _ _

/-- Running an operation in flight never ends it with InvalidParameter, whatever the host answers. -/
theorem notEndedInvalid_run {s t : State} (h : NotEndedInvalid s) (hrun : s.run = .next t) : NotEndedInvalid t :=
  @settle_induction NotEndedInvalid (fun _ _ hs => hs) (fun _ p a hs _ _ => notEndedInvalid_answered hs p a) s.inputs s t h hrun

/-- SETDT in range is its planner Write (R153). -/
theorem exec_setdt_inRange {dt : DateTime} {s : State} (halt : Bool) (hlife : s.life = .ready) (hrange : FieldsInRange dt) :
    exec (.setdt dt halt) s = ((s.accept .setdt).planWrite 0x00 (timeBytes dt halt)).run :=
  (if_pos hlife).trans (if_pos hrange)

/-- SETDT out of range ends where it was accepted (R151, R153). -/
theorem exec_setdt_outOfRange {dt : DateTime} {s : State} (halt : Bool) (hlife : s.life = .ready) (hrange : ¬ FieldsInRange dt) :
    exec (.setdt dt halt) s = .next ((s.accept .setdt).raise .invalidParameter) :=
  (if_pos hlife).trans (if_neg hrange)

/-- An accepted SETDT in range is BUSY with its Write, so it never ends with InvalidParameter. -/
theorem notEndedInvalid_setdt {dt : DateTime} {halt : Bool} {s t : State} (hlife : s.life = .ready) (hrange : FieldsInRange dt)
    (hexec : exec (.setdt dt halt) s = .next t) : NotEndedInvalid t := by
  rw [exec_setdt_inRange halt hlife hrange] at hexec
  refine notEndedInvalid_run (notEndedInvalid_sendNext ?_ _) hexec
  exact notEndedInvalid_of_busy rfl

/-- Settles O26: `notEndedInvalid_setdt` is the one direction, and `exec_setdt_outOfRange` gives the other and that nothing is sent. -/
theorem setdtRejectsExactlyOutOfRange : Obligations.SetdtRejectsExactlyOutOfRange := by
  intro dt halt s hlife
  refine ⟨⟨?_, fun hrange => ?_⟩, fun t hexec hrange => ?_⟩
  · rintro ⟨t, hexec, hidle, hresp⟩ hrange
    exact notEndedInvalid_setdt hlife hrange hexec hidle _ hresp rfl
  · exact ⟨_, exec_setdt_outOfRange halt hlife hrange, rfl, rfl⟩
  · rw [exec_setdt_outOfRange halt hlife hrange] at hexec
    cases hexec
    rfl

end Sys2Proof.Proofs

/-! PROOF. A request that ends with InvalidParameter is its acceptance and nothing more (R243): an operation that issues a call never ends so. -/

namespace Sys2Proof.Proofs

open Sys2Proof.Machine Sys2Proof.Claims

/-- A planner Write that is begun BUSY is waiting or has ended with Success (R131, R135). -/
theorem notEndedInvalid_planWrite {s : State} (h : s.phase = .busy) (start : Byte) (data : List Byte) :
    NotEndedInvalid (s.planWrite start data) := by
  refine notEndedInvalid_sendNext ?_ data
  exact notEndedInvalid_of_busy h

/-- Only the requests that end at once can end with InvalidParameter, and they end where they were accepted (R240). -/
theorem exec_eq_raise_of_endedInvalid {i : Instr} {s t : State} (hexec : exec i s = .next t) (hended : ¬ NotEndedInvalid t) :
    t = (s.accept i.opcode).raise .invalidParameter := by
  cases exec_cases i s with
  | notReady _ _ h | bcdDomain _ _ _ h => cases h.symm.trans hexec
  | quiet code payload hpayload h =>
    cases h.symm.trans hexec
    by_cases hcode : code = .invalidParameter
    · subst hcode
      rw [hpayload (by decide)]
      rfl
    · exact absurd (notEndedInvalid_finish hcode _ _) hended
  | madeReady _ _ h | madeUninit _ h =>
    cases h.symm.trans hexec
    exact absurd (notEndedInvalid_finish (by decide) _ _) hended
  | write start data _ _ _ h =>
    exact absurd (notEndedInvalid_run (notEndedInvalid_planWrite rfl start data) (h.symm.trans hexec)) hended
  | read _ _ _ _ h | initHook _ _ _ h | deinitHook _ _ h =>
    exact absurd (notEndedInvalid_run (notEndedInvalid_of_busy rfl) (h.symm.trans hexec)) hended

/-- Hour 24 is out of range (R151). -/
theorem not_fieldsInRange_of_hour_24 {dt : DateTime} (hhour : dt.hour = 24) : ¬ FieldsInRange dt := by
  simp [FieldsInRange, hhour]

/-- Settles O49: by `exec_eq_raise_of_endedInvalid` such a request only accepts and raises; hour 24 is an instance of `exec_setdt_outOfRange`. -/
theorem invalidParameterTouchesNoBus : Obligations.InvalidParameterTouchesNoBus := by
  refine ⟨fun i s t p hexec hidle hresp => ?_, fun dt halt s hlife hhour => ?_⟩
  · have hraise : t = (s.accept i.opcode).raise .invalidParameter :=
      exec_eq_raise_of_endedInvalid hexec fun h => h hidle _ hresp rfl
    subst hraise
    cases hresp
    exact ⟨rfl, rfl, rfl, rfl⟩
  · exact ⟨_, exec_setdt_outOfRange halt hlife (not_fieldsInRange_of_hour_24 hhour), rfl, rfl, rfl⟩

end Sys2Proof.Proofs

/-! PROOF. The encoder and the decoder against each other (R80 to R87, R95): one equivalence per format, from which the two round trips follow. -/

namespace Sys2Proof.Proofs

open Sys2Proof.Machine Sys2Proof.Claims

/-- A flags byte is accepted exactly when it is the one that `encodeFlags` writes (R86). -/
theorem decodeFlags_eq_some_iff {fl : Byte} {halt : Bool} : decodeFlags fl = some halt ↔ fl = encodeFlags halt := by
  constructor
  · intro h
    by_cases hclear : fl &&& 0xFE = 0
    · have hle : fl.toNat ≤ 1 := (flags_reserved_clear fl).mp hclear
      have hbit : fl = 0 ∨ fl = 1 := by bv_omega
      rcases hbit with rfl | rfl <;> (cases h; rfl)
    · rw [decodeFlags, if_neg hclear] at h
      cases h
  · rintro rfl
    exact decodeFlags_encodeFlags halt

theorem formatF0_eq_ok_iff {i j : Instr} {args : List Byte} : formatF0 i args = .ok j ↔ args = [] ∧ i = j := by
  cases args <;> simp [formatF0]

theorem formatF1_eq_ok_iff {i : Byte → Instr} {j : Instr} {args : List Byte} :
    formatF1 i args = .ok j ↔ ∃ a, args = [a] ∧ i a = j := by
  constructor
  · intro h
    unfold formatF1 at h
    split at h
    · next a => cases h; exact ⟨a, rfl, rfl⟩
    · cases h
  · rintro ⟨a, rfl, rfl⟩
    rfl

theorem formatF2_eq_ok_iff {i : Byte → Byte → Instr} {j : Instr} {args : List Byte} :
    formatF2 i args = .ok j ↔ ∃ a b, args = [a, b] ∧ i a b = j := by
  constructor
  · intro h
    unfold formatF2 at h
    split at h
    · next a b => cases h; exact ⟨a, b, rfl, rfl⟩
    · cases h
  · rintro ⟨a, b, rfl, rfl⟩
    rfl

theorem formatF2Flags_eq_ok_iff {i : Byte → Bool → Instr} {j : Instr} {args : List Byte} :
    formatF2Flags i args = .ok j ↔ ∃ a halt, args = [a, encodeFlags halt] ∧ i a halt = j := by
  constructor
  · intro h
    unfold formatF2Flags at h
    split at h
    · next a fl =>
      split at h
      · next halt hfl => cases h; exact ⟨a, halt, by rw [decodeFlags_eq_some_iff.mp hfl], rfl⟩
      · cases h
    · cases h
  · rintro ⟨a, halt, rfl, rfl⟩
    simp only [formatF2Flags, decodeFlags_encodeFlags]

theorem formatFDT_eq_ok_iff {i : DateTime → Bool → Instr} {j : Instr} {args : List Byte} :
    formatFDT i args = .ok j ↔ ∃ dt halt, args = fields dt ++ [encodeFlags halt] ∧ i dt halt = j := by
  constructor
  · intro h
    unfold formatFDT at h
    split at h
    · split at h
      · next halt hfl => cases h; exact ⟨_, halt, by rw [decodeFlags_eq_some_iff.mp hfl]; rfl, rfl⟩
      · cases h
    · cases h
  · rintro ⟨dt, halt, rfl, rfl⟩
    simp only [formatFDT, fields, List.cons_append, List.nil_append, decodeFlags_encodeFlags]

/-- The count byte is determined by the data, which it bounds by 255 bytes (R84, R85). -/
theorem formatFDATA_eq_ok_iff {i : Byte → List Byte → Instr} {j : Instr} {args : List Byte} :
    formatFDATA i args = .ok j ↔
      ∃ a data, data.length ≤ 255 ∧ args = a :: BitVec.ofNat 8 data.length :: data ∧ i a data = j := by
  constructor
  · intro h
    unfold formatFDATA at h
    split at h
    · next a count data =>
      have hcount : count.toNat < 256 := count.isLt
      split at h
      · next hlen => cases h; exact ⟨a, data, by omega, by rw [hlen, BitVec.ofNat_toNat, BitVec.setWidth_eq], rfl⟩
      · cases h
    · cases h
  · rintro ⟨a, data, hfit, rfl, rfl⟩
    exact if_pos (by rw [BitVec.toNat_ofNat, Nat.mod_eq_of_lt (by omega)])

/-- The operands of a well-formed request are read back as that request (R83 to R86). -/
theorem decodeOperands_encodeOperands {i : Instr} (hwf : i.wf = true) : decodeOperands i.opcode (encodeOperands i) = .ok i := by
  cases i with
  | setdt dt halt => exact formatFDT_eq_ok_iff.mpr ⟨dt, halt, rfl, rfl⟩
  | secenc v halt => exact formatF2Flags_eq_ok_iff.mpr ⟨v, halt, rfl, rfl⟩
  | wrram a data | pwrite a data => exact formatFDATA_eq_ok_iff.mpr ⟨a, data, of_decide_eq_true hwf, rfl, rfl⟩
  | init | deinit | getdt | rdram | setow | bcdenc | bcddec | secdec | ctrlenc | adec | pread => rfl

/-- Accepted operands are the encoding of a well-formed request of their operation (R83 to R86). -/
theorem encodeOperands_decodeOperands {o : Opcode} {args : List Byte} {i : Instr} (h : decodeOperands o args = .ok i) :
    i.wf = true ∧ i.opcode = o ∧ encodeOperands i = args := by
  cases o with
  | init | deinit | getdt => obtain ⟨rfl, rfl⟩ := formatF0_eq_ok_iff.mp h; exact ⟨rfl, rfl, rfl⟩
  | setow | bcdenc | bcddec | secdec | ctrlenc | adec =>
    obtain ⟨a, rfl, rfl⟩ := formatF1_eq_ok_iff.mp h; exact ⟨rfl, rfl, rfl⟩
  | rdram | pread => obtain ⟨a, b, rfl, rfl⟩ := formatF2_eq_ok_iff.mp h; exact ⟨rfl, rfl, rfl⟩
  | secenc => obtain ⟨v, halt, rfl, rfl⟩ := formatF2Flags_eq_ok_iff.mp h; exact ⟨rfl, rfl, rfl⟩
  | setdt => obtain ⟨dt, halt, rfl, rfl⟩ := formatFDT_eq_ok_iff.mp h; exact ⟨rfl, rfl, rfl⟩
  | wrram | pwrite =>
    obtain ⟨a, data, hfit, rfl, rfl⟩ := formatFDATA_eq_ok_iff.mp h
    exact ⟨decide_eq_true hfit, rfl, rfl⟩

theorem decode_byte_cons (o : Opcode) (args : List Byte) : decode (o.byte :: args) = decodeOperands o args := by
  simp only [decode, ofByte_byte]

/-- An accepted byte string begins with an assigned opcode, and its operands are accepted (R95). -/
theorem exists_opcode_of_decode_ok {bytes : List Byte} {i : Instr} (h : decode bytes = .ok i) :
    ∃ o args, bytes = o.byte :: args ∧ decodeOperands o args = .ok i := by
  cases bytes with
  | nil => cases h
  | cons b args =>
    cases ho : Opcode.ofByte b with
    | none => simp only [decode, ho] at h; cases h
    | some o =>
      refine ⟨o, args, by rw [byte_ofByte ho], ?_⟩
      simpa only [decode, ho] using h

/-- Settles O4: the opcode byte selects its operation, and `decodeOperands_encodeOperands` reads the operands back. -/
theorem decodeInvertsEncode : Obligations.DecodeInvertsEncode := by
  intro i hwf
  rw [encode, decode_byte_cons]
  exact decodeOperands_encodeOperands hwf

/-- Settles O5: an accepted byte string splits into an opcode and operands, and `encodeOperands_decodeOperands` writes both again. -/
theorem encodeInvertsDecode : Obligations.EncodeInvertsDecode := by
  intro bytes i h
  obtain ⟨o, args, rfl, hargs⟩ := exists_opcode_of_decode_ok h
  obtain ⟨hwf, rfl, rfl⟩ := encodeOperands_decodeOperands hargs
  exact ⟨hwf, rfl⟩

end Sys2Proof.Proofs

/-! PROOF. Which byte strings are accepted (R82, R84, R86, R95), and what a step does with each of them. -/

namespace Sys2Proof.Proofs

open Sys2Proof.Machine Sys2Proof.Claims

/-! ### Accepted or malformed -/

/-- The one way in which operands are rejected is as malformed (R84, R86). -/
abbrev OkOrMalformed (r : Except DecodeReject Instr) : Prop := (∃ i, r = .ok i) ∨ r = .error .malformed

theorem formatF0_okOrMalformed (i : Instr) (args : List Byte) : OkOrMalformed (formatF0 i args) := by
  unfold formatF0
  split
  · exact .inl ⟨_, rfl⟩
  · exact .inr rfl

theorem formatF1_okOrMalformed (i : Byte → Instr) (args : List Byte) : OkOrMalformed (formatF1 i args) := by
  unfold formatF1
  split
  · exact .inl ⟨_, rfl⟩
  · exact .inr rfl

theorem formatF2_okOrMalformed (i : Byte → Byte → Instr) (args : List Byte) : OkOrMalformed (formatF2 i args) := by
  unfold formatF2
  split
  · exact .inl ⟨_, rfl⟩
  · exact .inr rfl

theorem formatF2Flags_okOrMalformed (i : Byte → Bool → Instr) (args : List Byte) : OkOrMalformed (formatF2Flags i args) := by
  unfold formatF2Flags
  split
  · split
    · exact .inl ⟨_, rfl⟩
    · exact .inr rfl
  · exact .inr rfl

theorem formatFDT_okOrMalformed (i : DateTime → Bool → Instr) (args : List Byte) : OkOrMalformed (formatFDT i args) := by
  unfold formatFDT
  split
  · split
    · exact .inl ⟨_, rfl⟩
    · exact .inr rfl
  · exact .inr rfl

theorem formatFDATA_okOrMalformed (i : Byte → List Byte → Instr) (args : List Byte) : OkOrMalformed (formatFDATA i args) := by
  unfold formatFDATA
  split
  · split
    · exact .inl ⟨_, rfl⟩
    · exact .inr rfl
  · exact .inr rfl

theorem decodeOperands_okOrMalformed (o : Opcode) (args : List Byte) : OkOrMalformed (decodeOperands o args) := by
  cases o with
  | init | deinit | getdt => exact formatF0_okOrMalformed _ _
  | setow | bcdenc | bcddec | secdec | ctrlenc | adec => exact formatF1_okOrMalformed _ _
  | rdram | pread => exact formatF2_okOrMalformed _ _
  | secenc => exact formatF2Flags_okOrMalformed _ _
  | setdt => exact formatFDT_okOrMalformed _ _
  | wrram | pwrite => exact formatFDATA_okOrMalformed _ _

/-- Every well-formed request has the length of R84. -/
theorem requestLength_encode {i : Instr} (hwf : i.wf = true) :
    requestLength ((encode i).getD 0 0) ((encode i).getD 2 0) = some (encode i).length := by
  cases i with
  | init => exact (Laws.EncodedLength.init hwf).2
  | deinit => exact (Laws.EncodedLength.deinit hwf).2
  | setdt dt halt => exact (Laws.EncodedLength.setdt dt halt hwf).2
  | getdt => exact (Laws.EncodedLength.getdt hwf).2
  | wrram offset data => exact (Laws.EncodedLength.wrram offset data hwf).2
  | rdram offset size => exact (Laws.EncodedLength.rdram offset size hwf).2
  | setow mode => exact (Laws.EncodedLength.setow mode hwf).2
  | bcdenc v => exact (Laws.EncodedLength.bcdenc v hwf).2
  | bcddec b => exact (Laws.EncodedLength.bcddec b hwf).2
  | secenc v halt => exact (Laws.EncodedLength.secenc v halt hwf).2
  | secdec b => exact (Laws.EncodedLength.secdec b hwf).2
  | ctrlenc mode => exact (Laws.EncodedLength.ctrlenc mode hwf).2
  | adec a => exact (Laws.EncodedLength.adec a hwf).2
  | pwrite start data => exact (Laws.EncodedLength.pwrite start data hwf).2
  | pread start count => exact (Laws.EncodedLength.pread start count hwf).2

theorem encodeFlags_toNat_le_one (halt : Bool) : (encodeFlags halt).toNat ≤ 1 := by cases halt <;> decide

theorem exists_halt_of_toNat_le_one {fl : Byte} (h : fl.toNat ≤ 1) : ∃ halt, fl = encodeFlags halt := by
  have hbit : fl = 0 ∨ fl = 1 := by bv_omega
  rcases hbit with rfl | rfl
  · exact ⟨false, rfl⟩
  · exact ⟨true, rfl⟩

/-- The flags clause of R86 for an opcode byte and its operands: bits 7:1 of the flags byte of SETDT and SECENC are zero. -/
abbrev FlagsOk (b : Byte) (args : List Byte) : Prop :=
  (b.toNat = 0x03 → (args.getD 7 0).toNat ≤ 1) ∧ (b.toNat = 0x12 → (args.getD 1 0).toNat ≤ 1)

/-- The encoder sets no reserved flag bit (R86). -/
theorem flagsOk_encodeOperands (i : Instr) : FlagsOk i.opcode.byte (encodeOperands i) := by
  cases i with
  | setdt dt halt => simpa [FlagsOk, Instr.opcode, Opcode.byte, encodeOperands] using encodeFlags_toNat_le_one halt
  | secenc v halt => simpa [FlagsOk, Instr.opcode, Opcode.byte, encodeOperands] using encodeFlags_toNat_le_one halt
  | _ => simp [FlagsOk, Instr.opcode, Opcode.byte]

/-- What is accepted meets R84's length and R86's flags, as every encoding does. -/
theorem length_and_flags_of_decode_ok {b : Byte} {args : List Byte} {i : Instr} {k : Nat}
    (hk : requestLength b ((b :: args).getD 2 0) = some k) (h : decode (b :: args) = .ok i) :
    (b :: args).length = k ∧ FlagsOk b args := by
  obtain ⟨hwf, henc⟩ := encodeInvertsDecode _ _ h
  have hlen := requestLength_encode hwf
  rw [henc] at hlen
  refine ⟨Option.some.inj (hlen.symm.trans hk), ?_⟩
  obtain ⟨rfl, rfl⟩ := List.cons.inj henc
  exact flagsOk_encodeOperands i

/-- R84's length and R86's flags are all that acceptance asks for. -/
theorem decode_ok_of_length_and_flags {b : Byte} {args : List Byte} {k : Nat}
    (hk : requestLength b ((b :: args).getD 2 0) = some k) (hlen : (b :: args).length = k) (hflags : FlagsOk b args) :
    ∃ i, decode (b :: args) = .ok i := by
  cases ho : Opcode.ofByte b with
  | none => simp [requestLength, ho] at hk
  | some o =>
    obtain rfl := byte_ofByte ho
    simp only [requestLength, ofByte_byte] at hk
    rw [decode_byte_cons]
    cases o with
    | init | deinit | getdt =>
      cases hk
      obtain rfl : args = [] := by simpa using hlen
      exact ⟨_, rfl⟩
    | setow | bcdenc | bcddec | secdec | ctrlenc | adec =>
      cases hk
      obtain ⟨a, rfl⟩ : ∃ a, args = [a] := List.length_eq_one_iff.mp (by simpa using hlen)
      exact ⟨_, rfl⟩
    | rdram | pread =>
      cases hk
      obtain ⟨a, c, rfl⟩ : ∃ a c, args = [a, c] := List.length_eq_two.mp (by simpa using hlen)
      exact ⟨_, rfl⟩
    | secenc =>
      cases hk
      obtain ⟨v, fl, rfl⟩ : ∃ v fl, args = [v, fl] := List.length_eq_two.mp (by simpa using hlen)
      obtain ⟨halt, rfl⟩ := exists_halt_of_toNat_le_one (fl := fl) (hflags.2 rfl)
      exact ⟨_, formatF2Flags_eq_ok_iff.mpr ⟨v, halt, rfl, rfl⟩⟩
    | setdt =>
      cases hk
      match args, hlen with
      | [s, mi, h, wd, d, mo, y, fl], _ =>
        obtain ⟨halt, rfl⟩ := exists_halt_of_toNat_le_one (fl := fl) (hflags.1 rfl)
        exact ⟨_, formatFDT_eq_ok_iff.mpr ⟨⟨s, mi, h, wd, d, mo, y⟩, halt, rfl, rfl⟩⟩
    | wrram | pwrite =>
      cases hk
      match args, hlen with
      | a :: count :: data, hlen =>
        have hcount : data.length = count.toNat := by
          simp only [List.length_cons, List.getD_cons_succ, List.getD_cons_zero] at hlen
          omega
        exact ⟨_, if_pos hcount⟩

/-- Settles O7: `decode_ok_of_length_and_flags` accepts, and by `length_and_flags_of_decode_ok` nothing else is, so it is malformed. -/
theorem requestAcceptedExactlyByLengthAndFlags : Obligations.RequestAcceptedExactlyByLengthAndFlags := by
  intro b args k hk
  refine ⟨fun ⟨hlen, hflags⟩ => decode_ok_of_length_and_flags hk hlen hflags, fun hbad => ?_⟩
  have hnot : ∀ i, decode (b :: args) ≠ .ok i := by
    intro i h
    obtain ⟨hlen, hdate, hsec⟩ := length_and_flags_of_decode_ok hk h
    omega
  cases ho : Opcode.ofByte b with
  | none => simp [requestLength, ho] at hk
  | some o =>
    obtain rfl := byte_ofByte ho
    rw [decode_byte_cons] at hnot ⊢
    exact (decodeOperands_okOrMalformed o args).resolve_left fun ⟨i, h⟩ => hnot i h

/-! ### Reserved opcodes -/

/-- The assigned opcodes are 0x01 to 0x07 and 0x10 to 0x17 (R81, R82). -/
theorem opcode_byte_range (o : Opcode) : (1 ≤ o.byte.toNat ∧ o.byte.toNat ≤ 0x07) ∨ (0x10 ≤ o.byte.toNat ∧ o.byte.toNat ≤ 0x17) := by
  cases o <;> decide

theorem decode_reserved {b : Byte} (args : List Byte)
    (hb : b.toNat = 0 ∨ (0x08 ≤ b.toNat ∧ b.toNat ≤ 0x0F) ∨ 0x18 ≤ b.toNat) : decode (b :: args) = .error .illegalOp := by
  cases ho : Opcode.ofByte b with
  | none => simp only [decode, ho]
  | some o =>
    have hrange := opcode_byte_range o
    rw [byte_ofByte ho] at hrange
    omega

/-! ### The step on a byte string -/

/-- However an IDLE engine comes to take a byte string, the step runs it. -/
theorem step_takes {s u : State} {bytes : List Byte} (h : Takes s bytes u) : step s = runRequest bytes u := by
  obtain ⟨hidle, ⟨rest, hport, hreset, rfl⟩ | ⟨moves, hport, hinputs, rfl⟩⟩ := h
  · exact step_held hidle hport hreset
  · exact step_request hidle hport hinputs

theorem runRequest_ok {bytes : List Byte} {i : Instr} (h : decode bytes = .ok i) (s : State) : runRequest bytes s = exec i s := by
  simp only [runRequest, h]

theorem runRequest_illegalOp {bytes : List Byte} (h : decode bytes = .error .illegalOp) (s : State) :
    runRequest bytes s = .refused .illegalOp := by
  simp only [runRequest, h]

theorem runRequest_malformed {bytes : List Byte} (h : decode bytes = .error .malformed) (s : State) :
    runRequest bytes s = .refused .malformed := by
  simp only [runRequest, h]

/-- Settles O6: `decode_reserved`, and a step runs the byte string it takes. -/
theorem reservedOpcodesRefused : Obligations.ReservedOpcodesRefused := by
  intro b args hb
  have hdecode := decode_reserved args hb
  exact ⟨hdecode, fun s u htakes => (step_takes htakes).trans (runRequest_illegalOp hdecode u)⟩

/-- Settles O8: a step runs the byte string it takes, and an empty one is no request. -/
theorem requestPortRejections : Obligations.RequestPortRejections := by
  intro s u bytes htakes
  rw [step_takes htakes]
  refine ⟨fun hdecode => runRequest_malformed hdecode u, ?_⟩
  rintro rfl
  rfl

/-- Settles O1: a step runs the byte string it takes. -/
theorem idleStepRunsTheDecodedRequest : Obligations.IdleStepRunsTheDecodedRequest := by
  intro s u bytes i htakes hdecode
  exact (step_takes htakes).trans (runRequest_ok hdecode u)

theorem decode_tableBytes {nbits w : Nat} {i : Instr} (h : decodeTableWord nbits w = some i) : decode (tableBytes nbits w) = .ok i := by
  unfold decodeTableWord at h
  split at h
  · next j hj => cases h; exact hj
  · cases h

/-- Settles O2: the word is presented as the oldest held request, and no reset input stands before it. -/
theorem presentedTableWordRunsNext : Obligations.PresentedTableWordRunsNext := by
  intro s nbits w i hword
  have hheld : step (s.withFetchWord nbits w) = runRequest (tableBytes nbits w) _ :=
    step_held rfl rfl (dropWhile_isReset_ne s.inputs)
  exact hheld.trans (runRequest_ok (decode_tableBytes hword) _)

/-- Settles O3: each sample is evaluated. -/
theorem sampleRequestsDecode : Obligations.SampleRequestsDecode := by
  unfold Obligations.SampleRequestsDecode
  decide

end Sys2Proof.Proofs

/-! PROOF. What a request and a step can do, each said once: the states in which a request waits for its first answer or has ended, and the ways a step
leads to a next state. -/

namespace Sys2Proof.Proofs

open Sys2Proof.Machine Sys2Proof.Claims

@[simp] theorem sendNext_inputs (data : List Byte) (s : State) : (s.sendNext data).inputs = s.inputs := by
  unfold State.sendNext; split <;> rfl

/-- `u` is where request `i`, accepted in `s`, stands before the host's first answer: ended, or waiting on its first call. -/
inductive Started (i : Instr) (s : State) : State → Prop where
  /-- Ended at once, with `LIFE` as it was. -/
  | ended (code : ResultCode) (payload : List Byte) (hbare : code ≠ .success → payload = []) :
      Started i s ((s.accept i.opcode).finish code payload)
  /-- INIT without a hook (R220). -/
  | madeReady (hi : i = .init) (hcomplete : s.binding.complete) :
      Started i s (({ s.accept .init with life := .ready }).succeed [])
  /-- DEINIT without a hook (R222). -/
  | madeUninit (hi : i = .deinit) : Started i s (({ s.accept .deinit with life := .uninit }).succeed [])
  /-- A planner Write (R131). -/
  | write (start : Byte) (data : List Byte) (hlife : s.life = .ready) (hop : i.opcode.byte ∈ writeOps)
      (hfit : i.wf = true → data.length ≤ 255) : Started i s ((s.accept i.opcode).planWrite start data)
  /-- A planner Read (R136). -/
  | read (start count : Byte) (hlife : s.life = .ready) (hop : i.opcode.byte ∈ readOps) :
      Started i s ((s.accept i.opcode).planRead start count)
  /-- INIT with a hook (R220). -/
  | initHook (hi : i = .init) (hlife : s.life = .uninit) (hcomplete : s.binding.complete) :
      Started i s ((s.accept .init).issue .initHook .initHook)
  /-- DEINIT with a hook (R222). -/
  | deinitHook (hi : i = .deinit) (hlife : s.life = .ready) : Started i s ((s.accept .deinit).issue .deinitHook .deinitHook)

/-- Every request that is not refused runs from where it started. -/
theorem exec_started {i : Instr} {s t : State} (hexec : exec i s = .next t) : ∃ u, Started i s u ∧ u.run = .next t := by
  cases exec_cases i s with
  | notReady _ _ h | bcdDomain _ _ _ h => cases h.symm.trans hexec
  | quiet code payload hbare h =>
    cases h.symm.trans hexec
    exact ⟨_, .ended code payload hbare, run_done rfl⟩
  | madeReady hi hcomplete h =>
    cases h.symm.trans hexec
    exact ⟨_, .madeReady hi hcomplete, run_done rfl⟩
  | madeUninit hi h =>
    cases h.symm.trans hexec
    exact ⟨_, .madeUninit hi, run_done rfl⟩
  | write start data hlife hop hfit h => exact ⟨_, .write start data hlife hop hfit, h.symm.trans hexec⟩
  | read start count hlife hop h => exact ⟨_, .read start count hlife hop, h.symm.trans hexec⟩
  | initHook hi hlife hcomplete h => exact ⟨_, .initHook hi hlife hcomplete, h.symm.trans hexec⟩
  | deinitHook hi hlife h => exact ⟨_, .deinitHook hi hlife, h.symm.trans hexec⟩

/-- What holds where a request started, and is kept by every answer within the contract, holds where it leads, whatever the host answers. -/
theorem run_induction {P : State → Prop} (hinputs : ∀ s ins, P s → P { s with inputs := ins })
    (hanswered : ∀ s p a, P s → s.pending = some p → a.fits p.expects = true → P (s.answered p a))
    {s t : State} (hs : P s) (hrun : s.run = .next t) : P t :=
  settle_induction hinputs hanswered s.inputs hs hrun

/-! ### The step, by the host's next move -/

theorem step_idle_waits {s : State} (hidle : s.phase = .idle) (hport : s.port = []) (hinputs : s.inputs = []) : step s = .next s := by
  simp only [step, hidle, idleStep, hinputs, hport]

theorem step_busy_waits {s : State} (hbusy : s.phase = .busy) (hinputs : s.inputs = []) : step s = .next s := by
  simp only [step, hbusy, busyStep, hinputs]

theorem step_idle_answer {s : State} {a : Answer} {rest : List Input} (hidle : s.phase = .idle) (hport : s.port = [])
    (hinputs : s.inputs = .answer a :: rest) : step s = .fault .answerWithoutCall := by
  simp only [step, hidle, idleStep, hinputs, hport]

theorem step_bind_uninit {s : State} {b : Binding} {rest : List Input} (hidle : s.phase = .idle) (hport : s.port = [])
    (hlife : s.life = .uninit) (hinputs : s.inputs = .bind b :: rest) : step s = .next (State.rebind b { s with inputs := rest }) := by
  simp [step, hidle, idleStep, hinputs, hport, bindIdle, hlife]

theorem step_bind_ready {s : State} {b : Binding} {rest : List Input} (hidle : s.phase = .idle) (hport : s.port = [])
    (hlife : s.life = .ready) (hinputs : s.inputs = .bind b :: rest) : step s = .fault .bindingFixed := by
  simp [step, hidle, idleStep, hinputs, hport, bindIdle, hlife]

theorem step_busy_bind {s : State} {b : Binding} {rest : List Input} (hbusy : s.phase = .busy)
    (hinputs : s.inputs = .bind b :: rest) : step s = .fault .bindingFixed := by
  simp only [step, hbusy, busyStep, hinputs]

theorem step_busy_request {s : State} {bytes : List Byte} {rest : List Input} (hbusy : s.phase = .busy)
    (hinputs : s.inputs = .request bytes :: rest) : step s = .next (State.hold bytes { s with inputs := rest }) := by
  simp [step, hbusy, busyStep, hinputs]

/-- The ways a step leads to a next state. -/
inductive StepCase (s t : State) : Prop where
  /-- The reset input (R270). -/
  | reset (rest : List Input) (hinputs : s.inputs = .reset :: rest) (ht : t = State.engineReset { s with inputs := rest })
  /-- A request that is taken and accepted. -/
  | request (bytes : List Byte) (i : Instr) (u : State) (htakes : Takes s bytes u) (hdecode : decode bytes = .ok i)
      (hexec : exec i u = .next t)
  /-- An empty byte string is dropped (R95, log 8). -/
  | dropped (htakes : Takes s [] t)
  /-- A binding while UNINIT and IDLE (R223). -/
  | bound (b : Binding) (rest : List Input) (hidle : s.phase = .idle) (hinputs : s.inputs = .bind b :: rest) (hlife : s.life = .uninit)
      (ht : t = State.rebind b { s with inputs := rest })
  /-- Without a host move the engine waits (log 3). -/
  | waits (ht : t = s)
  /-- An answer to the outstanding call. -/
  | answered (a : Answer) (rest : List Input) (hbusy : s.phase = .busy) (hinputs : s.inputs = .answer a :: rest)
      (hsettle : settle (.answer a :: rest) s = .next t)
  /-- A request presented while BUSY is held (R275). -/
  | held (bytes : List Byte) (rest : List Input) (hinputs : s.inputs = .request bytes :: rest)
      (ht : t = State.hold bytes { s with inputs := rest })

/-- A byte string that is taken is an accepted request, or empty, or refused. -/
theorem stepCase_of_takes {s t u : State} {bytes : List Byte} (htakes : Takes s bytes u) (hstep : step s = .next t) : StepCase s t := by
  rw [step_takes htakes] at hstep
  unfold runRequest at hstep
  split at hstep
  · next i hdecode => exact .request bytes i u htakes hdecode hstep
  · next hdecode =>
    cases hstep
    cases bytes with
    | nil => exact .dropped htakes
    | cons b args =>
      cases ho : Opcode.ofByte b with
      | none => simp [decode, ho] at hdecode
      | some o =>
        simp only [decode, ho] at hdecode
        rcases decodeOperands_okOrMalformed o args with ⟨i, h⟩ | h <;> cases h.symm.trans hdecode
  · cases hstep
  · cases hstep

/-- Every step to a next state is one of the cases. -/
theorem step_stepCase {s t : State} (hstep : step s = .next t) : StepCase s t := by
  by_cases hreset : ∃ rest, s.inputs = .reset :: rest
  · obtain ⟨rest, hinputs⟩ := hreset
    exact .reset rest hinputs (Host.Outcome.next.inj ((step_reset hinputs).symm.trans hstep)).symm
  have hno : ∀ rest, s.inputs ≠ .reset :: rest := not_exists.mp hreset
  cases hphase : s.phase with
  | idle =>
    cases hport : s.port with
    | cons bytes held => exact stepCase_of_takes ⟨hphase, .inl ⟨held, hport, hno, rfl⟩⟩ hstep
    | nil =>
      cases hinputs : s.inputs with
      | nil => cases (step_idle_waits hphase hport hinputs).symm.trans hstep; exact .waits rfl
      | cons m rest =>
        cases m with
        | request bytes => exact stepCase_of_takes ⟨hphase, .inr ⟨rest, hport, hinputs, rfl⟩⟩ hstep
        | answer a => cases (step_idle_answer hphase hport hinputs).symm.trans hstep
        | bind b =>
          cases hlife : s.life with
          | uninit => cases (step_bind_uninit hphase hport hlife hinputs).symm.trans hstep; exact .bound b rest hphase hinputs hlife rfl
          | ready => cases (step_bind_ready hphase hport hlife hinputs).symm.trans hstep
        | reset => exact absurd hinputs (hno rest)
  | busy =>
    cases hinputs : s.inputs with
    | nil => cases (step_busy_waits hphase hinputs).symm.trans hstep; exact .waits rfl
    | cons m rest =>
      cases m with
      | request bytes => cases (step_busy_request hphase hinputs).symm.trans hstep; exact .held bytes rest hinputs rfl
      | answer a => exact .answered a rest hphase hinputs ((step_answer hphase hinputs).symm.trans hstep)
      | bind b => cases (step_busy_bind hphase hinputs).symm.trans hstep
      | reset => exact absurd hinputs (hno rest)

end Sys2Proof.Proofs

/-! PROOF. The invariant of the machine (R22, R24, R25, R52, R89, R223): it holds where a request starts, every answer keeps it, and so does every step. -/

namespace Sys2Proof.Proofs

open Sys2Proof.Machine Sys2Proof.Claims

/-- The parts of the invariant that do not speak of the operation in flight. -/
structure SettledInv (s : State) : Prop where
  readyBound  : s.ReadyBound
  failureBare : s.FailureBare
  chipOk      : s.ChipOk

theorem settledInv_of_inv {s : State} (h : s.Inv) : SettledInv s := ⟨h.readyBound, h.failureBare, h.chipOk⟩

/-- An operation that ends restores the whole invariant. -/
theorem inv_finish {s : State} {code : ResultCode} {payload : List Byte} (h : SettledInv s)
    (hbare : code ≠ .success → payload = []) : (s.finish code payload).Inv where
  readyBound := h.readyBound
  callWhileBusy := by simp [State.CallWhileBusy]
  pendingFits := by simp [State.PendingFits]
  failureBare := by simpa [State.FailureBare] using hbare
  chipOk := h.chipOk

/-- A call that fits the operation in flight restores the whole invariant. -/
theorem inv_issue {s : State} {c : Call} {p : Pending} (h : SettledInv s) (hbusy : s.phase = .busy)
    (hfits : (s.issue c p).PendingOk p) : (s.issue c p).Inv where
  readyBound := h.readyBound
  callWhileBusy := by simp [State.CallWhileBusy, hbusy]
  pendingFits := by
    intro q hq
    cases hq
    exact hfits
  failureBare := h.failureBare
  chipOk := h.chipOk

/-- The planner's loop restores the invariant: it sends the next frame or ends (R131). -/
theorem inv_sendNext {s : State} {data : List Byte} (h : SettledInv s) (hbusy : s.phase = .busy) (hlife : s.life = .ready)
    (hop : s.op ∈ writeOps) (hn : s.n.toNat = data.length) : (s.sendNext data).Inv := by
  by_cases hmore : s.cur.toNat < s.n.toNat
  · rw [sendNext_more hmore]
    exact inv_issue h hbusy ⟨hlife, hop, hmore, hn, List.getLast?_concat⟩
  · rw [sendNext_end hmore]
    exact inv_finish h (absurd rfl)

/-- While BUSY a call is outstanding, and it is the one that `PendingOk` describes. -/
theorem pendingOk_of_inv {s : State} {p : Pending} (h : s.Inv) (hp : s.pending = some p) : s.phase = .busy ∧ s.PendingOk p :=
  ⟨h.callWhileBusy.mpr (by simp [hp]), h.pendingFits p (by simp [hp])⟩

/-- Every answer keeps the invariant. -/
theorem inv_answered {s : State} {p : Pending} (a : Answer) (h : s.Inv) (hp : s.pending = some p) : (s.answered p a).Inv := by
  obtain ⟨hbusy, hok⟩ := pendingOk_of_inv h hp
  have hs := settledInv_of_inv h
  cases p with
  | write data =>
    obtain ⟨hlife, hop, hcur, hn, _⟩ := hok
    cases a with
    | fail => exact inv_finish ⟨hs.readyBound, hs.failureBare, Memory.ok_frameFailed hs.chipOk _ _ _⟩ (fun _ => rfl)
    | ok bytes =>
      have hadvanced : SettledInv (s.chipFrameOk data).advance := ⟨hs.readyBound, hs.failureBare, Memory.ok_frameOk hs.chipOk _ _⟩
      exact inv_sendNext hadvanced hbusy hlife hop hn
  | position start count =>
    obtain ⟨hlife, hop, _⟩ := hok
    cases a with
    | fail => exact inv_finish ⟨hs.readyBound, hs.failureBare, hs.chipOk⟩ (fun _ => rfl)
    | ok bytes =>
      exact inv_issue ⟨hs.readyBound, hs.failureBare, hs.chipOk⟩ hbusy ⟨hlife, hop, List.getLast?_concat⟩
  | receive count =>
    cases a with
    | fail => exact inv_finish ⟨hs.readyBound, hs.failureBare, hs.chipOk⟩ (fun _ => rfl)
    | ok bytes => exact inv_finish ⟨hs.readyBound, hs.failureBare, hs.chipOk⟩ (absurd rfl)
  | initHook =>
    obtain ⟨_, _, hcomplete, _⟩ := hok
    cases a with
    | fail => exact inv_finish hs (fun _ => rfl)
    | ok bytes => exact inv_finish ⟨fun _ => hcomplete, hs.failureBare, hs.chipOk⟩ (absurd rfl)
  | deinitHook =>
    have hoff : SettledInv { s with life := .uninit } := ⟨(fun hl => by cases hl), hs.failureBare, hs.chipOk⟩
    cases a with
    | fail => exact inv_finish hoff (fun _ => rfl)
    | ok bytes => exact inv_finish hoff (absurd rfl)

/-- Which host moves are still to come is nothing to the invariant. -/
theorem inv_withInputs {s : State} (h : s.Inv) (ins : List Input) : State.Inv { s with inputs := ins } :=
  ⟨h.readyBound, h.callWhileBusy, h.pendingFits, h.failureBare, h.chipOk⟩

/-- A well-formed request that starts in a state meeting the invariant starts meeting it. -/
theorem inv_of_started {i : Instr} {s u : State} (h : s.Inv) (hwf : i.wf = true) (hstart : Started i s u) : u.Inv := by
  have hs : SettledInv (s.accept i.opcode) := ⟨h.readyBound, h.failureBare, h.chipOk⟩
  cases hstart with
  | ended code payload hbare => exact inv_finish hs hbare
  | madeReady hi hcomplete => exact inv_finish ⟨fun _ => hcomplete, h.failureBare, h.chipOk⟩ (absurd rfl)
  | madeUninit hi => exact inv_finish ⟨(fun hl => by cases hl), h.failureBare, h.chipOk⟩ (absurd rfl)
  | write start data hlife hop hfit =>
    have hbegun : SettledInv { s.accept i.opcode with ptr := start, cur := 0, n := BitVec.ofNat 8 data.length } :=
      ⟨h.readyBound, h.failureBare, h.chipOk⟩
    refine inv_sendNext hbegun rfl hlife hop ?_
    have := hfit hwf
    simp only [BitVec.toNat_ofNat]
    omega
  | read start count hlife hop => exact inv_issue hs rfl ⟨hlife, hop, List.getLast?_concat⟩
  | initHook hi hlife hcomplete =>
    subst hi
    exact inv_issue hs rfl ⟨hlife, rfl, hcomplete, List.getLast?_concat⟩
  | deinitHook hi hlife =>
    subst hi
    exact inv_issue hs rfl ⟨hlife, rfl, List.getLast?_concat⟩

theorem inv_run {s t : State} (h : s.Inv) (hrun : s.run = .next t) : t.Inv :=
  run_induction (fun _ ins hs => inv_withInputs hs ins) (fun _ _ a hs hp _ => inv_answered a hs hp) h hrun

theorem inv_exec {i : Instr} {s t : State} (h : s.Inv) (hwf : i.wf = true) (hexec : exec i s = .next t) : t.Inv := by
  obtain ⟨u, hstart, hrun⟩ := exec_started hexec
  exact inv_run (inv_of_started h hwf hstart) hrun

/-- Taking a byte string changes the port or the host's moves only. -/
theorem inv_of_takes {s u : State} {bytes : List Byte} (h : s.Inv) (htakes : Takes s bytes u) : u.Inv := by
  obtain ⟨_, ⟨_, _, _, rfl⟩ | ⟨_, _, _, rfl⟩⟩ := htakes <;>
    exact ⟨h.readyBound, h.callWhileBusy, h.pendingFits, h.failureBare, h.chipOk⟩

/-- Whatever the reset input abandons, the chip memory stays in its form. -/
theorem chipOk_abandon {s : State} (h : s.ChipOk) : s.abandon.ChipOk := by
  unfold State.abandon
  split
  · exact Memory.ok_frameFailed h _ _ _
  all_goals exact h

theorem inv_engineReset {s : State} (h : s.Inv) : s.engineReset.Inv where
  readyBound hl := by cases hl
  callWhileBusy := by simp [State.CallWhileBusy]
  pendingFits := by simp [State.PendingFits]
  failureBare := by simp [State.FailureBare]
  chipOk := chipOk_abandon h.chipOk

theorem pending_eq_none_of_idle {s : State} (h : s.Inv) (hidle : s.phase = .idle) : s.pending = none := by
  simpa [State.CallWhileBusy, hidle] using h.callWhileBusy

/-- A binding while UNINIT and IDLE: nothing is outstanding that the old configuration could matter to (R223). -/
theorem inv_rebind {s : State} (h : s.Inv) (hidle : s.phase = .idle) (hlife : s.life = .uninit) (b : Binding) : (s.rebind b).Inv where
  readyBound hl := by simp [hlife] at hl
  callWhileBusy := by simpa [State.CallWhileBusy] using h.callWhileBusy
  pendingFits := by simp [State.PendingFits, pending_eq_none_of_idle h hidle]
  failureBare := by simpa [State.FailureBare] using h.failureBare
  chipOk := by
    unfold State.rebind
    split
    · exact h.chipOk
    · exact ⟨rfl, by simp⟩

/-- Settles O10: each way of stepping keeps the invariant. -/
theorem stepKeepsInvariant : Obligations.StepKeepsInvariant := by
  intro s t h hstep
  cases step_stepCase hstep with
  | reset rest _ ht => subst ht; exact inv_engineReset (inv_withInputs h rest)
  | request bytes i u htakes hdecode hexec =>
    exact inv_exec (inv_of_takes h htakes) (encodeInvertsDecode bytes i hdecode).1 hexec
  | dropped htakes => exact inv_of_takes h htakes
  | bound b rest hidle _ hlife ht => subst ht; exact inv_rebind (inv_withInputs h rest) hidle hlife b
  | waits ht => subst ht; exact h
  | answered a rest _ hinputs hsettle => exact inv_run h (by rw [State.run, hinputs, hsettle])
  | held bytes rest _ ht =>
    subst ht
    exact ⟨h.readyBound, h.callWhileBusy, h.pendingFits, h.failureBare, h.chipOk⟩

/-- Settles O11: after reset the engine is UNINIT and IDLE, with no response, no call and no known chip register. -/
theorem resetMeetsInvariant : Obligations.ResetMeetsInvariant where
  readyBound hl := by cases hl
  callWhileBusy := by decide
  pendingFits := by simp [State.PendingFits, State.reset]
  failureBare := by simp [State.FailureBare, State.reset]
  chipOk := ⟨rfl, by simp [State.reset]⟩

/-- Settles O13: each field is that of the definition. -/
theorem resetLeavesEngineIdle : Obligations.ResetLeavesEngineIdle := ⟨rfl, rfl, rfl, rfl, rfl, rfl⟩

/-! ### Which operations change LIFE -/

/-- From lifecycle state `l`, `s` has `LIFE` unchanged, or an INIT has ended with Success, or a DEINIT has ended (R26). -/
def LifeAccounted (l : Life) (s : State) : Prop :=
  s.life = l ∨
    (s.pending = none ∧ s.life = .ready ∧ s.op = Opcode.init.byte ∧ s.resp = some ⟨.success, []⟩) ∨
    (s.pending = none ∧ s.life = .uninit ∧ s.op = Opcode.deinit.byte)

/-- Only the answers to the two hooks change `LIFE`. -/
theorem lifeAccounted_answered {s : State} {p : Pending} (a : Answer) (h : s.Inv) (hp : s.pending = some p) :
    LifeAccounted s.life (s.answered p a) := by
  have hok := (pendingOk_of_inv h hp).2
  cases p with
  | write | position | receive => left; cases a <;> simp [State.answered]
  | initHook =>
    obtain ⟨_, hop, _⟩ := hok
    cases a with
    | fail => exact .inl rfl
    | ok bytes => exact .inr (.inl ⟨rfl, rfl, hop, rfl⟩)
  | deinitHook =>
    obtain ⟨_, hop, _⟩ := hok
    cases a with
    | fail | ok => exact .inr (.inr ⟨rfl, rfl, hop⟩)

/-- While a call is outstanding `LIFE` is still as it was. -/
theorem lifeAccounted_run {l : Life} {s t : State} (h : s.Inv) (hl : LifeAccounted l s) (hrun : s.run = .next t) : LifeAccounted l t := by
  refine (run_induction (P := fun s => s.Inv ∧ LifeAccounted l s) (fun _ ins hs => ⟨inv_withInputs hs.1 ins, hs.2⟩) ?_ ⟨h, hl⟩ hrun).2
  rintro s p a ⟨hinv, hacc⟩ hp -
  refine ⟨inv_answered a hinv hp, ?_⟩
  rcases hacc with rfl | ⟨hnone, _⟩ | ⟨hnone, _⟩
  · exact lifeAccounted_answered a hinv hp
  · cases hnone.symm.trans hp
  · cases hnone.symm.trans hp

theorem lifeAccounted_of_started {i : Instr} {s u : State} (hstart : Started i s u) : LifeAccounted s.life u := by
  cases hstart with
  | madeReady hi _ => exact .inr (.inl ⟨rfl, rfl, rfl, rfl⟩)
  | madeUninit hi => exact .inr (.inr ⟨rfl, rfl, rfl⟩)
  | write start data => exact .inl (sendNext_life _ _)
  | ended | read | initHook | deinitHook => exact .inl rfl

theorem lifeAccounted_exec {i : Instr} {s t : State} (h : s.Inv) (hwf : i.wf = true) (hexec : exec i s = .next t) :
    LifeAccounted s.life t := by
  obtain ⟨u, hstart, hrun⟩ := exec_started hexec
  exact lifeAccounted_run (inv_of_started h hwf hstart) (lifeAccounted_of_started hstart) hrun

theorem life_of_takes {s u : State} {bytes : List Byte} (htakes : Takes s bytes u) : u.life = s.life := by
  obtain ⟨_, ⟨_, _, _, rfl⟩ | ⟨_, _, _, rfl⟩⟩ := htakes <;> rfl

/-- A step accounts for its change of `LIFE`, or is the reset input. -/
theorem lifeAccounted_step {s t : State} (h : s.Inv) (hstep : step s = .next t) :
    LifeAccounted s.life t ∨ (t.life = .uninit ∧ ∃ rest, s.inputs = .reset :: rest) := by
  cases step_stepCase hstep with
  | reset rest hinputs ht => subst ht; exact .inr ⟨rfl, rest, hinputs⟩
  | request bytes i u htakes hdecode hexec =>
    rw [← life_of_takes htakes]
    exact .inl (lifeAccounted_exec (inv_of_takes h htakes) (encodeInvertsDecode bytes i hdecode).1 hexec)
  | dropped htakes => exact .inl (.inl (life_of_takes htakes))
  | bound b rest _ _ _ ht => subst ht; exact .inl (.inl (State.rebind_life _ _))
  | waits ht | held _ _ _ ht => subst ht; exact .inl (.inl rfl)
  | answered a rest _ hinputs hsettle => exact .inl (lifeAccounted_run h (.inl rfl) (by rw [State.run, hinputs, hsettle]))

/-- Settles O12: the two changes of `LIFE` that `lifeAccounted_step` leaves. -/
theorem onlyLifecycleRequestsChangeLife : Obligations.OnlyLifecycleRequestsChangeLife := by
  intro s t h hstep
  rcases lifeAccounted_step h hstep with (hsame | ⟨_, hready, hop, hresp⟩ | ⟨_, huninit, hop⟩) | ⟨huninit, hreset⟩
  · exact ⟨fun hs ht => by simp [hsame, hs] at ht, fun hs ht => by simp [hsame, hs] at ht⟩
  · exact ⟨fun _ _ => ⟨hop, hresp⟩, fun _ ht => by simp [hready] at ht⟩
  · exact ⟨fun _ ht => by simp [huninit] at ht, fun _ _ => .inl hop⟩
  · exact ⟨fun _ ht => by simp [huninit] at ht, fun _ _ => .inr hreset⟩

/-! ### How a request leaves the engine -/

/-- Ended with a response, or waiting with the response `r` of before. -/
def EndedOrWaiting (r : Option Response) (s : State) : Prop :=
  (s.phase = .idle ∧ s.pending = none ∧ ∃ r', s.resp = some r' ∧ (r'.code ≠ .success → r'.payload = [])) ∨
    (s.phase = .busy ∧ s.pending.isSome = true ∧ s.resp = r)

theorem endedOrWaiting_finish (r : Option Response) {code : ResultCode} {payload : List Byte} (hbare : code ≠ .success → payload = [])
    (s : State) : EndedOrWaiting r (s.finish code payload) :=
  .inl ⟨rfl, rfl, _, rfl, hbare⟩

theorem endedOrWaiting_sendNext {s : State} (hbusy : s.phase = .busy) (data : List Byte) : EndedOrWaiting s.resp (s.sendNext data) := by
  by_cases hmore : s.cur.toNat < s.n.toNat
  · rw [sendNext_more hmore]
    exact .inr ⟨hbusy, rfl, rfl⟩
  · rw [sendNext_end hmore]
    exact endedOrWaiting_finish _ (absurd rfl) _

theorem endedOrWaiting_answered {s : State} (hbusy : s.phase = .busy) (p : Pending) (a : Answer) :
    EndedOrWaiting s.resp (s.answered p a) := by
  cases p <;> cases a
  case write.ok data bytes => exact endedOrWaiting_sendNext (s := (s.chipFrameOk data).advance) hbusy data
  case position.ok => exact .inr ⟨hbusy, rfl, rfl⟩
  case receive.ok | initHook.ok | deinitHook.ok => exact endedOrWaiting_finish _ (absurd rfl) _
  all_goals exact endedOrWaiting_finish _ (fun _ => rfl) _

theorem endedOrWaiting_of_started {i : Instr} {s u : State} (hstart : Started i s u) : EndedOrWaiting s.resp u := by
  cases hstart with
  | ended code payload hbare => exact endedOrWaiting_finish _ hbare _
  | madeReady | madeUninit => exact endedOrWaiting_finish _ (absurd rfl) _
  | write start data => exact endedOrWaiting_sendNext (s := { s.accept i.opcode with ptr := start, cur := 0, n := _ }) rfl data
  | read | initHook | deinitHook => exact .inr ⟨rfl, rfl, rfl⟩

/-- Settles O48: it holds where a request starts, and an answer is taken only while it waits. -/
theorem requestEndsOrWaits : Obligations.RequestEndsOrWaits := by
  intro i s t hexec
  obtain ⟨u, hstart, hrun⟩ := exec_started hexec
  refine run_induction (P := EndedOrWaiting s.resp) (fun _ _ h => h) ?_ (endedOrWaiting_of_started hstart) hrun
  rintro v p a (⟨_, hnone, _⟩ | ⟨hbusy, _, hresp⟩) hp -
  · cases hnone.symm.trans hp
  · rw [← hresp]
    exact endedOrWaiting_answered hbusy p a

end Sys2Proof.Proofs

/-! PROOF. The calls of a request and of a step: each fits the port, and an answer leads to one new call at most (R61, R91, R92, R130, R276). -/

namespace Sys2Proof.Proofs

open Sys2Proof.Machine Sys2Proof.Claims

/-- What the transport port of configuration `b` is asked for: a Send of 1 to `CAP` bytes to the slave, a Receive from it, or a hook (R92, R130). -/
def CallFits (b : Binding) (c : Call) : Prop :=
  (∃ frame, c = .send b.slaveAddr frame ∧ 1 ≤ frame.length ∧ frame.length ≤ b.cap) ∨
    (∃ count, c = .receive b.slaveAddr count) ∨ c = .initHook ∨ c = .deinitHook

/-- `t` has the calls of `s` and then at most one more, which fits the port. -/
def OneCallMore (s t : State) : Prop :=
  t.calls = s.calls ∨ ∃ c, t.calls = s.calls ++ [c] ∧ (2 ≤ s.binding.cap → CallFits s.binding c)

/-- A frame is its address byte and a chunk of at most `CAP - 1` bytes (R91, R131). -/
theorem callFits_frame {s : State} (data : List Byte) (hcap : 2 ≤ s.binding.cap) :
    CallFits s.binding (.send s.binding.slaveAddr (s.frame data)) := by
  refine .inl ⟨_, rfl, by simp [State.frame], ?_⟩
  have hchunk : (s.chunk data).length ≤ s.chunkLen := List.length_take_le _ _
  have hlen : s.chunkLen ≤ s.binding.cap - 1 := Nat.min_le_left _ _
  simp only [State.frame, List.length_cons]
  omega

theorem oneCallMore_sendNext (s : State) (data : List Byte) : OneCallMore s (s.sendNext data) := by
  by_cases hmore : s.cur.toNat < s.n.toNat
  · rw [sendNext_more hmore]
    exact .inr ⟨_, rfl, callFits_frame data⟩
  · rw [sendNext_end hmore]
    exact .inl rfl

theorem oneCallMore_answered (s : State) (p : Pending) (a : Answer) : OneCallMore s (s.answered p a) := by
  cases p <;> cases a
  case write.ok data bytes => exact oneCallMore_sendNext (s.chipFrameOk data).advance data
  case position.ok start count bytes => exact .inr ⟨_, rfl, fun _ => .inr (.inl ⟨count, rfl⟩)⟩
  all_goals exact .inl rfl

theorem oneCallMore_of_started {i : Instr} {s u : State} (hstart : Started i s u) : OneCallMore s u := by
  cases hstart with
  | ended | madeReady | madeUninit => exact .inl rfl
  | write start data => exact oneCallMore_sendNext { s.accept i.opcode with ptr := start, cur := 0, n := _ } data
  | read start count => exact .inr ⟨_, rfl, fun hcap => .inl ⟨[start], rfl, le_rfl, Nat.le_of_succ_le hcap⟩⟩
  | initHook => exact .inr ⟨_, rfl, fun _ => .inr (.inr (.inl rfl))⟩
  | deinitHook => exact .inr ⟨_, rfl, fun _ => .inr (.inr (.inr rfl))⟩

/-! ### The calls of a request -/

/-- The configuration of `s`, and calls that begin with those of `s` and go on with calls that fit the port. -/
def CallsFrom (s t : State) : Prop :=
  t.binding = s.binding ∧ ∃ new, t.calls = s.calls ++ new ∧ ∀ c ∈ new, CallFits s.binding c

theorem callsFrom_trans {s t u : State} (hcap : 2 ≤ s.binding.cap) (ht : CallsFrom s t) (hb : u.binding = t.binding)
    (hu : OneCallMore t u) : CallsFrom s u := by
  obtain ⟨htb, new, hcalls, hfits⟩ := ht
  refine ⟨hb.trans htb, ?_⟩
  rcases hu with hsame | ⟨c, hmore, hc⟩
  · exact ⟨new, hsame.trans hcalls, hfits⟩
  · refine ⟨new ++ [c], by rw [hmore, hcalls, List.append_assoc], fun d hd => ?_⟩
    rcases List.mem_append.mp hd with hd | hd
    · exact hfits d hd
    · obtain rfl := List.mem_singleton.mp hd
      rw [← htb]
      exact hc (htb ▸ hcap)

theorem binding_of_started {i : Instr} {s u : State} (hstart : Started i s u) : u.binding = s.binding := by
  cases hstart with
  | write => exact sendNext_binding _ _
  | ended | madeReady | madeUninit | read | initHook | deinitHook => rfl

/-- Settles O45: the call a request starts with fits the port, and so does the one that each answer leads to. -/
theorem issuedFramesFitTheCapacity : Obligations.IssuedFramesFitTheCapacity := by
  intro i s t hcap hexec
  obtain ⟨u, hstart, hrun⟩ := exec_started hexec
  have hself : CallsFrom s s := ⟨rfl, [], by simp, by simp⟩
  have hu : CallsFrom s u := callsFrom_trans hcap hself (binding_of_started hstart) (oneCallMore_of_started hstart)
  exact (run_induction (P := CallsFrom s) (fun _ _ h => h)
    (fun v p a hv _ _ => callsFrom_trans hcap hv (answered_binding p a v) (oneCallMore_answered v p a)) hu hrun).2

/-! ### Calls and answers in a step -/

/-- `t` has the calls of `s` and more, and its calls and waiting answers together are `bound` at most. -/
def CallsPaced (s : State) (bound : Nat) (t : State) : Prop :=
  (∃ new, t.calls = s.calls ++ new) ∧ t.calls.length + answerCount t.inputs ≤ bound

@[simp] theorem answerCount_answer (a : Answer) (rest : List Input) : answerCount (.answer a :: rest) = answerCount rest + 1 := by
  simp [answerCount]

theorem answerCount_le_cons (m : Input) (rest : List Input) : answerCount rest ≤ answerCount (m :: rest) :=
  (List.sublist_cons_self m rest).countP_le

/-- One call more at most, with as many fewer answers waiting, keeps the pace. -/
theorem callsPaced_of_oneCallMore {s u t : State} {bound : Nat} (hmore : OneCallMore s u) (ht : CallsPaced u bound t) : CallsPaced s bound t := by
  obtain ⟨⟨new, hnew⟩, hle⟩ := ht
  rcases hmore with hsame | ⟨c, hc, _⟩
  · exact ⟨⟨new, by rw [hnew, hsame]⟩, hle⟩
  · exact ⟨⟨c :: new, by rw [hnew, hc, List.append_assoc]; rfl⟩, hle⟩

theorem length_calls_le_of_oneCallMore {s u : State} (hmore : OneCallMore s u) : u.calls.length ≤ s.calls.length + 1 := by
  rcases hmore with hsame | ⟨c, hc, _⟩
  · rw [hsame]; omega
  · rw [hc, List.length_append, List.length_singleton]

theorem callsPaced_mono {s t : State} {b c : Nat} (hle : b ≤ c) (ht : CallsPaced s b t) : CallsPaced s c t :=
  ⟨ht.1, ht.2.trans hle⟩

/-- Each answer that is taken leads to one call at most. -/
theorem callsPaced_settle {ins : List Input} {s t : State} (hsettle : settle ins s = .next t) :
    CallsPaced s (s.calls.length + answerCount ins) t := by
  induction ins generalizing s with
  | nil => cases hsettle; exact ⟨⟨[], by simp⟩, le_rfl⟩
  | cons m rest ih =>
    cases m with
    | request | bind | reset => cases hsettle; exact ⟨⟨[], by simp⟩, le_rfl⟩
    | answer a =>
      cases hp : s.pending with
      | none => cases (settle_done _ hp).symm.trans hsettle; exact ⟨⟨[], by simp⟩, le_rfl⟩
      | some p =>
        cases hf : a.fits p.expects with
        | false => cases (settle_misfit a rest hp hf).symm.trans hsettle
        | true =>
          rw [settle_answer a rest hp hf] at hsettle
          have hmore := oneCallMore_answered s p a
          have hlen := length_calls_le_of_oneCallMore hmore
          refine callsPaced_of_oneCallMore hmore (callsPaced_mono ?_ (ih hsettle))
          rw [answerCount_answer]
          omega

theorem inputs_of_started {i : Instr} {s u : State} (hstart : Started i s u) : u.inputs = s.inputs := by
  cases hstart with
  | write => exact sendNext_inputs _ _
  | ended | madeReady | madeUninit | read | initHook | deinitHook => rfl

/-- A request issues one call more than the answers it takes, at most. -/
theorem callsPaced_exec {i : Instr} {s t : State} (hexec : exec i s = .next t) :
    CallsPaced s (s.calls.length + answerCount s.inputs + 1) t := by
  obtain ⟨u, hstart, hrun⟩ := exec_started hexec
  have hmore := oneCallMore_of_started hstart
  have hlen := length_calls_le_of_oneCallMore hmore
  refine callsPaced_of_oneCallMore hmore (callsPaced_mono ?_ (callsPaced_settle hrun))
  rw [inputs_of_started hstart]
  omega

/-- Taking a byte string issues no call and takes no answer. -/
theorem calls_and_answers_of_takes {s u : State} {bytes : List Byte} (htakes : Takes s bytes u) :
    u.calls = s.calls ∧ answerCount u.inputs ≤ answerCount s.inputs := by
  obtain ⟨_, ⟨_, _, _, rfl⟩ | ⟨moves, _, hinputs, rfl⟩⟩ := htakes
  · exact ⟨rfl, le_rfl⟩
  · exact ⟨rfl, by rw [hinputs]; exact answerCount_le_cons _ _⟩

/-- Settles O51: of the ways of stepping only an accepted request and answers issue calls. -/
theorem noCallBeforeThePreviousAnswer : Obligations.NoCallBeforeThePreviousAnswer := by
  intro s t hstep
  cases step_stepCase hstep with
  | reset rest hinputs ht =>
    subst ht
    refine ⟨⟨[], by simp⟩, ?_⟩
    have := answerCount_le_cons .reset rest
    simp only [State.engineReset_calls, State.engineReset_inputs, hinputs]
    omega
  | request bytes i u htakes _ hexec =>
    obtain ⟨hcalls, hanswers⟩ := calls_and_answers_of_takes htakes
    obtain ⟨hnew, hle⟩ := callsPaced_exec hexec
    rw [hcalls] at hnew hle
    simp only [htakes.1]
    exact ⟨hnew, by omega⟩
  | dropped htakes =>
    obtain ⟨hcalls, hanswers⟩ := calls_and_answers_of_takes htakes
    exact ⟨⟨[], by simp [hcalls]⟩, by rw [hcalls]; omega⟩
  | bound b rest _ hinputs _ ht =>
    subst ht
    refine ⟨⟨[], by simp⟩, ?_⟩
    have := answerCount_le_cons (.bind b) rest
    simp only [State.rebind_calls, State.rebind_inputs, hinputs]
    omega
  | waits ht => subst ht; exact ⟨⟨[], by simp⟩, by omega⟩
  | answered a rest hbusy hinputs hsettle =>
    simp only [hbusy, hinputs]
    exact callsPaced_settle hsettle
  | held bytes rest hinputs ht =>
    subst ht
    refine ⟨⟨[], by simp⟩, ?_⟩
    have := answerCount_le_cons (.request bytes) rest
    simp only [State.hold_calls, State.hold_inputs, hinputs]
    omega

end Sys2Proof.Proofs

/-! PROOF. The planner Writes: SETDT, WRRAM, SETOW and PWRITE (R131 to R135, R153, R171, R193) are the Write that Laws/Planner.lean follows to its end or to
its failed frame. -/

namespace Sys2Proof.Proofs

open Sys2Proof.Machine Sys2Proof.Claims

/-! ### The bytes of a Write -/

theorem bcdEnc_eq_packed {v : Byte} (hv : v.toNat ≤ 99) : bcdEnc v = packed v := by
  have hdigits : v.toNat / 10 % 16 * 16 + v.toNat % 10 % 16 = 16 * (v.toNat / 10) + v.toNat % 10 := by omega
  rw [bcdEnc, nibbles, packed, hdigits]

theorem packed_toNat {v : Byte} (hv : v.toNat ≤ 99) : (packed v).toNat = 16 * (v.toNat / 10) + v.toNat % 10 := by
  rw [packed, BitVec.toNat_ofNat]
  omega

/-- The mask 0x7F keeps the low seven bits (R114). -/
theorem toNat_and_7F (b : Byte) : (b &&& 0x7F).toNat = b.toNat % 128 := Nat.and_two_pow_sub_one_eq_mod b.toNat 7

/-- The halt bit is worth 128, over the low seven bits of the byte (R32, R113). -/
theorem withHalt_toNat (b : Byte) (halt : Bool) : (withHalt b halt).toNat = (if halt then 128 else 0) + b.toNat % 128 := by
  rw [withHalt, BitVec.toNat_or, toNat_and_7F]
  cases halt with
  | false => simp
  | true => exact (Nat.two_pow_add_eq_or_of_lt (i := 7) (Nat.mod_lt _ (by decide)) 1).symm

/-- Bit 7 is the halt bit (R32). -/
theorem getLsbD_seven_withHalt (b : Byte) (halt : Bool) : (withHalt b halt).getLsbD 7 = halt := by
  cases halt <;> simp [withHalt]

theorem secEnc_toNat {v : Byte} (halt : Bool) (hv : v.toNat ≤ 99) :
    (secEnc v halt).toNat = (if halt then 128 else 0) + (16 * (v.toNat / 10) + v.toNat % 10) % 128 := by
  rw [secEnc, withHalt_toNat, bcdEnc_eq_packed hv, packed_toNat hv]

/-- In range the seven register bytes are those of R153. -/
theorem timeBytes_eq_registerImage {dt : DateTime} (halt : Bool) (hrange : FieldsInRange dt) : timeBytes dt halt = registerImage dt halt := by
  obtain ⟨hsec, hmin, hhour, ⟨_, hwd⟩, ⟨_, hday⟩, ⟨_, hmonth⟩, hyear⟩ := hrange
  have hseconds : secEnc dt.second halt =
      BitVec.ofNat 8 ((if halt then 128 else 0) + 16 * (dt.second.toNat / 10) + dt.second.toNat % 10) := by
    have hbelow : 16 * (dt.second.toNat / 10) + dt.second.toNat % 10 < 128 := by
      have : dt.second.toNat / 10 ≤ 5 := by omega
      omega
    apply BitVec.eq_of_toNat_eq
    rw [secEnc_toNat halt (by omega), BitVec.toNat_ofNat, Nat.mod_eq_of_lt hbelow, Nat.add_assoc]
    cases halt <;> simp only [Bool.false_eq_true, if_false, if_true] <;> omega
  rw [timeBytes, registerImage, hseconds, bcdEnc_eq_packed (by omega), bcdEnc_eq_packed (by omega), bcdEnc_eq_packed (by omega),
    bcdEnc_eq_packed (by omega), bcdEnc_eq_packed (by omega), bcdEnc_eq_packed hyear]

/-- Every row of R191's table is the control byte the model builds from its fields. -/
theorem ctrlEnc_eq_controlRow (mode : Byte) : ctrlEnc mode = controlRow mode := by
  by_cases hmode : mode.toNat ≤ 5
  · have hrow : mode = 0 ∨ mode = 1 ∨ mode = 2 ∨ mode = 3 ∨ mode = 4 ∨ mode = 5 := by bv_omega
    rcases hrow with rfl | rfl | rfl | rfl | rfl | rfl <;> rfl
  · have hout : controlRow mode = none := List.getElem?_eq_none (by simp only [List.length_cons, List.length_nil]; omega)
    rw [hout, ctrlEnc, Option.map_eq_none_iff]
    unfold OutputMode.ofByte
    split
    case h_7 => rfl
    all_goals omega

/-! ### The requests that write -/

/-- In a READY engine each of the writing requests, its operands in range, is its planner Write. -/
theorem exec_startsWrite {i : Instr} {start : Byte} {data : List Byte} {s : State} (hlife : s.life = .ready)
    (hwrite : StartsWrite i start data) : exec i s = ((s.accept i.opcode).planWrite start data).run := by
  rcases hwrite with ⟨dt, halt, rfl, hrange, rfl, rfl⟩ | ⟨offset, rfl, hpos, hfits, rfl⟩ | ⟨mode, c, rfl, hrow, rfl, rfl⟩ | ⟨rfl, _, _⟩
  · rw [← timeBytes_eq_registerImage halt hrange]
    exact exec_setdt_inRange halt hlife hrange
  · rw [← ramRegister_eq_ofNat]
    exact (if_pos hlife).trans (if_pos ⟨hpos, hfits⟩)
  · show execSetow mode s = _
    rw [execSetow, if_pos hlife, ctrlEnc_eq_controlRow, hrow]
    rfl
  · exact if_pos hlife

theorem length_of_startsWrite {i : Instr} {start : Byte} {data : List Byte} (hwrite : StartsWrite i start data) :
    1 ≤ data.length ∧ data.length ≤ 255 := by
  rcases hwrite with ⟨dt, halt, _, _, _, rfl⟩ | ⟨offset, _, hpos, hfits, _⟩ | ⟨mode, c, _, _, _, rfl⟩ | ⟨_, hpos, hfits⟩
  · simp [registerImage]
  · omega
  · simp
  · exact ⟨hpos, hfits⟩

theorem planWrite_inputs (start : Byte) (data : List Byte) (s : State) : (s.planWrite start data).inputs = s.inputs :=
  sendNext_inputs _ _

theorem eq_ofNat_of_toNat_eq {b : Byte} {n : Nat} (h : b.toNat = n) : b = BitVec.ofNat 8 n := by
  rw [← h, BitVec.ofNat_toNat, BitVec.setWidth_eq]

/-- A Write that has ended is done as the statements say, whatever operation began it. -/
theorem writeDone_of_writeEnded {s u : State} {op : Opcode} {start : Byte} {data : List Byte}
    (h : WriteEnded (s.accept op) start data u) (rest : List Input) : WriteDone s op start data rest { u with inputs := rest } :=
  ⟨h.phase, h.pending, h.resp, h.op, h.calls, rfl, h.ptr, eq_ofNat_of_toNat_eq h.cur, eq_ofNat_of_toNat_eq h.n, h.life, h.binding,
    h.port, h.chip⟩

/-- And so is one that has failed. -/
theorem writeStopped_of_writeFailed {s u : State} {op : Opcode} {start : Byte} {data : List Byte} {j : Nat}
    (h : WriteFailed (s.accept op) start data j u) (rest : List Input) : WriteStopped s op start data j rest { u with inputs := rest } :=
  ⟨h.phase, h.pending, h.resp, h.op, h.calls, rfl, h.ptr, eq_ofNat_of_toNat_eq h.cur, eq_ofNat_of_toNat_eq h.n, h.life, h.binding,
    h.port, h.chip⟩

/-- A request that is a planner Write ends in one of the two ways that R131 has. -/
theorem writesAs_of_exec {i : Instr} {s : State} {start : Byte} {data : List Byte} (hcap : 2 ≤ s.binding.cap)
    (hfit : data.length ≤ 255) (hexec : exec i s = ((s.accept i.opcode).planWrite start data).run) : WritesAs i s start data := by
  rw [State.run, planWrite_inputs, State.accept_inputs] at hexec
  constructor
  · intro rest hinputs
    obtain ⟨u, hended, hsettle⟩ := planWrite_all_ok (s₀ := s.accept i.opcode) (start := start) rest hcap hfit
    exact ⟨_, by rw [hexec, hinputs]; exact hsettle, writeDone_of_writeEnded hended rest⟩
  · intro j rest hj hinputs
    obtain ⟨u, hfailed, hsettle⟩ := planWrite_fails (s₀ := s.accept i.opcode) (start := start) rest hcap hfit hj
    exact ⟨_, by rw [hexec, hinputs]; exact hsettle, writeStopped_of_writeFailed hfailed rest⟩

theorem writesAs_of_startsWrite {i : Instr} {start : Byte} {data : List Byte} {s : State} (hlife : s.life = .ready)
    (hcap : 2 ≤ s.binding.cap) (hwrite : StartsWrite i start data) : WritesAs i s start data :=
  writesAs_of_exec hcap (length_of_startsWrite hwrite).2 (exec_startsWrite hlife hwrite)

/-- A bus request is refused while the engine is not READY (R224). -/
theorem exec_bus_notReady {i : Instr} {s : State} (hbus : IsBus i) (hlife : s.life ≠ .ready) : exec i s = .refused .notReady := by
  cases i with
  | setdt | getdt | wrram | rdram | setow | pwrite | pread => exact if_neg hlife
  | init | deinit | bcdenc | bcddec | secenc | secdec | ctrlenc | adec => exact hbus.elim

theorem not_ready_of_uninit {s : State} (hlife : s.life = .uninit) : s.life ≠ .ready := by simp [hlife]

theorem exec_wrram_outside {offset : Byte} {data : List Byte} {s : State} (hlife : s.life = .ready)
    (hout : ¬ ramOk offset data.length) : exec (.wrram offset data) s = .next ((s.accept .wrram).raise .invalidParameter) :=
  (if_pos hlife).trans (if_neg hout)

theorem exec_setow_unrecognized {mode : Byte} {s : State} (hlife : s.life = .ready) (hrow : controlRow mode = none) :
    exec (.setow mode) s = .next ((s.accept .setow).raise .invalidParameter) := by
  show execSetow mode s = _
  rw [execSetow, if_pos hlife, ctrlEnc_eq_controlRow, hrow]

theorem controlRow_eq_none {mode : Byte} (hmode : 6 ≤ mode.toNat) : controlRow mode = none := List.getElem?_eq_none hmode

/-- Settles O25: refused, or out of range, or the planner Write of the register image. -/
theorem setdtFollowsItsRule : Obligations.SetdtFollowsItsRule := by
  intro dt halt s
  exact ⟨fun hlife => exec_bus_notReady trivial (not_ready_of_uninit hlife), exec_setdt_outOfRange halt,
    fun hlife hcap hrange => writesAs_of_startsWrite hlife hcap (.inl ⟨dt, halt, rfl, hrange, rfl, rfl⟩)⟩

/-- Settles O32: refused, or outside the window, or the planner Write of the data from the biased register. -/
theorem wrramFollowsItsRule : Obligations.WrramFollowsItsRule := by
  intro offset data s
  refine ⟨fun hlife => exec_bus_notReady trivial (not_ready_of_uninit hlife), fun hlife hout => exec_wrram_outside hlife ?_,
    fun hlife hcap hpos hfits => writesAs_of_startsWrite hlife hcap (.inr (.inl ⟨offset, rfl, hpos, hfits, rfl⟩))⟩
  omega

/-- Settles O36: refused, or an unrecognized mode, or the planner Write of the control byte. -/
theorem setowFollowsItsRule : Obligations.SetowFollowsItsRule := by
  intro mode s
  exact ⟨fun hlife => exec_bus_notReady trivial (not_ready_of_uninit hlife),
    fun hlife hmode => exec_setow_unrecognized hlife (controlRow_eq_none hmode),
    fun c hlife hcap hrow => writesAs_of_startsWrite hlife hcap (.inr (.inr (.inl ⟨mode, c, rfl, hrow, rfl, rfl⟩)))⟩

theorem exec_pwrite_ready {s : State} (start : Byte) (data : List Byte) (hlife : s.life = .ready) :
    exec (.pwrite start data) s = ((s.accept .pwrite).planWrite start data).run :=
  if_pos hlife

/-- Settles O38: PWRITE is its planner Write, the data empty or not. -/
theorem pwriteIssuesThePlannedFrames : Obligations.PwriteIssuesThePlannedFrames := by
  intro start data s rest hlife hcap hfit hinputs
  exact (writesAs_of_exec hcap hfit (exec_pwrite_ready start data hlife)).1 rest hinputs

/-- Settles O39: PWRITE is its planner Write. -/
theorem failedSendStopsTheWrite : Obligations.FailedSendStopsTheWrite := by
  intro start data s j rest hlife hcap hfit hj hinputs
  exact (writesAs_of_exec hcap hfit (exec_pwrite_ready start data hlife)).2 j rest hj hinputs

/-- Settles O40: with no data the planner's loop ends before its first Send. -/
theorem emptyPwriteIssuesNoSend : Obligations.EmptyPwriteIssuesNoSend := by
  intro start s hlife
  exact (exec_pwrite_ready start [] hlife).trans (run_done rfl)

/-! ### Writes of one frame -/

theorem frameCount_eq_one {cap len : Nat} (hpos : 1 ≤ len) (hcap : len < cap) : frameCount cap len = 1 := by
  rw [frameCount, Nat.div_eq_iff (by omega)]
  omega

/-- A Write that a whole frame can carry is one frame: the start address and all the data (R132). -/
theorem planFrames_eq_singleton {cap : Nat} {start : Byte} {data : List Byte} (hpos : 1 ≤ data.length) (hcap : data.length < cap) :
    planFrames cap start data = [start :: data] := by
  have htake : data.take (cap - 1) = data := List.take_of_length_le (by omega)
  simp [planFrames, frameCount_eq_one hpos hcap, planFrame, htake]

/-- Settles O27: seven bytes are one frame, the Write of it is done, and its first byte carries `halt`. -/
theorem setdtIsOneFrameAtLargeCap : Obligations.SetdtIsOneFrameAtLargeCap := by
  intro dt halt s rest hlife hcap hrange hinputs
  have hlen : (registerImage dt halt).length = 7 := rfl
  constructor
  · rw [← timeBytes_eq_registerImage halt hrange]
    exact congrArg some (getLsbD_seven_withHalt _ halt)
  · have hwrites := writesAs_of_startsWrite hlife (by omega) (.inl ⟨dt, halt, rfl, hrange, rfl, rfl⟩)
    have hoks : s.inputs = oks (frameCount s.binding.cap (registerImage dt halt).length) rest := by
      rw [frameCount_eq_one (by omega) (by omega)]
      exact hinputs
    obtain ⟨t, hexec, _, _, hresp, _, hcalls, hrest, _, _, _, _, _, _, hchip⟩ := hwrites.1 rest hoks
    refine ⟨t, hexec, hresp, hrest, ?_, fun k hk => ?_⟩
    · rw [hcalls, planFrames_eq_singleton (by omega) (by omega)]
      rfl
    · simpa [hlen, hk] using hchip (by simp [hlen]) k

/-- The only frame of a Write is its last call: every answer within the contract ends it, with no further call. -/
theorem answered_onlyFrame {s₀ u : State} {start : Byte} {data : List Byte} (hcap : 2 ≤ s₀.binding.cap)
    (hone : frameCount s₀.binding.cap data.length = 1) (h : WriteWaiting s₀ start data 0 u) (a : Answer)
    (hfits : a.fits (Pending.write data).expects = true) :
    (u.answered (.write data) a).pending = none ∧ (u.answered (.write data) a).calls = u.calls := by
  cases a with
  | fail => exact ⟨rfl, rfl⟩
  | ok bytes =>
    obtain rfl : bytes = [] := by simpa [Answer.fits, Pending.expects] using hfits
    rcases answered_ok hcap h (by omega) with ⟨hmore, _⟩ | ⟨_, hended⟩
    · omega
    · refine ⟨hended.pending, ?_⟩
      rw [hended.calls, h.calls, List.take_of_length_le (by rw [planFrames_length, hone])]

/-- An operation whose outstanding call is its last issues no further call. -/
theorem calls_of_settle_lastCall {ins : List Input} {u t : State} {p : Pending} (hp : u.pending = some p)
    (hlast : ∀ a, a.fits p.expects = true → (u.answered p a).pending = none ∧ (u.answered p a).calls = u.calls)
    (hsettle : settle ins u = .next t) : t.calls = u.calls := by
  by_cases hno : NoAnswerNext ins
  · cases (settle_noAnswer hno u).symm.trans hsettle
    rfl
  obtain ⟨a, rest, rfl⟩ : ∃ a rest, ins = .answer a :: rest := by simpa [NoAnswerNext] using hno
  cases hfits : a.fits p.expects with
  | false => cases (settle_misfit a rest hp hfits).symm.trans hsettle
  | true =>
    obtain ⟨hnone, hcalls⟩ := hlast a hfits
    rw [settle_answer a rest hp hfits, settle_done rest hnone] at hsettle
    cases hsettle
    exact hcalls

/-- And it runs for every host whose next answer, if there is one, keeps the contract. -/
theorem exists_settle_lastCall {ins : List Input} {u : State} {p : Pending} (hp : u.pending = some p)
    (hlast : ∀ a, a.fits p.expects = true → (u.answered p a).pending = none)
    (hins : ∀ a rest, ins = .answer a :: rest → a.fits p.expects = true) : ∃ t, settle ins u = .next t := by
  by_cases hno : NoAnswerNext ins
  · exact ⟨_, settle_noAnswer hno u⟩
  obtain ⟨a, rest, rfl⟩ : ∃ a rest, ins = .answer a :: rest := by simpa [NoAnswerNext] using hno
  have hfits := hins a rest rfl
  exact ⟨_, (settle_answer a rest hp hfits).trans (settle_done rest (hlast a hfits))⟩

/-- The reserved bits 6:5 and 3:2 of every control byte in R191's table are zero. -/
theorem controlRow_reserved_clear {mode c : Byte} (hrow : controlRow mode = some c) : c &&& 0x6C = 0 := by
  have hall : ∀ b ∈ ([0x00, 0x80, 0x10, 0x11, 0x12, 0x13] : List Byte), b &&& 0x6C = 0 := by decide
  exact hall c (List.mem_of_getElem? hrow)

/-- Settles O37: SETOW is a Write of one byte, so its first frame is its last call. -/
theorem setowOverwritesWholeControlByte : Obligations.SetowOverwritesWholeControlByte := by
  intro mode c s hlife hcap hrow
  have hexec := exec_startsWrite hlife (.inr (.inr (.inl ⟨mode, c, rfl, hrow, rfl, rfl⟩)))
  rw [State.run, planWrite_inputs] at hexec
  have hone : frameCount (s.accept .setow).binding.cap [c].length = 1 := frameCount_eq_one le_rfl hcap
  have hwaits : WriteWaiting (s.accept .setow) 0x07 [c] 0 ((s.accept .setow).planWrite 0x07 [c]) := by
    rcases planWrite_begins (s₀ := s.accept .setow) (start := 0x07) (data := [c]) hcap (by simp) with ⟨_, h⟩ | ⟨h, _⟩
    · exact h
    · omega
  have hlast := answered_onlyFrame (s₀ := s.accept .setow) hcap hone hwaits
  have hcalls : ((s.accept .setow).planWrite 0x07 [c]).calls = s.calls ++ [.send s.binding.slaveAddr [0x07, c]] := by
    rw [hwaits.calls, planFrames_eq_singleton le_rfl hcap]
    rfl
  refine ⟨controlRow_reserved_clear hrow, fun t ht => ?_, fun hhost => ?_⟩
  · exact (calls_of_settle_lastCall hwaits.pending hlast (hexec.symm.trans ht)).trans hcalls
  · rw [hexec]
    refine exists_settle_lastCall hwaits.pending (fun a hfits => (hlast a hfits).1) fun a rest hinputs => ?_
    cases a with
    | fail => rfl
    | ok bytes =>
      obtain rfl := hhost bytes rest hinputs
      rfl

end Sys2Proof.Proofs

/-! PROOF. The planner Reads: GETDT, RDRAM and PREAD (R136 to R138, R155, R172), what they answer, and that they give back what SETDT and WRRAM wrote. -/

namespace Sys2Proof.Proofs

open Sys2Proof.Machine Sys2Proof.Claims

/-! ### How a Read ends -/

/-- A request that is a planner Read ends in one of the three ways that R136 has, its payload seen as its operation sees it. -/
theorem readsAs_of_exec {i : Instr} {s : State} {start count : Byte} {view : List Byte → List Byte}
    (hview : ∀ u : State, u.op = i.opcode.byte → u.readPayload = view)
    (hexec : exec i s = ((s.accept i.opcode).planRead start count).run) : ReadsAs i s start count view := by
  have hsettle : exec i s = settle s.inputs ((s.accept i.opcode).planRead start count) := hexec
  refine ⟨fun bytes rest hlen hinputs => ?_, fun rest hinputs => ?_, fun rest hinputs => ?_⟩
  · have hfits : (Answer.ok bytes).fits (Pending.receive count).expects = true := by
      simpa [Answer.fits, Pending.expects] using hlen
    rw [hsettle, hinputs, settle_answer _ _ rfl rfl, settle_answer _ _ rfl hfits, settle_done _ rfl]
    refine ⟨_, rfl, rfl, rfl, ?_, rfl, List.append_assoc _ _ _, rfl, rfl, rfl, rfl, rfl, rfl, rfl, rfl⟩
    show some (Response.mk .success (State.readPayload _ bytes)) = _
    rw [hview]
    rfl
  · rw [hsettle, hinputs, settle_answer _ _ rfl rfl, settle_done _ rfl]
    exact ⟨_, rfl, rfl, rfl, rfl, rfl, rfl, rfl, rfl, rfl, rfl, rfl, rfl, rfl, rfl⟩
  · rw [hsettle, hinputs, settle_answer _ _ rfl rfl, settle_answer _ _ rfl rfl, settle_done _ rfl]
    exact ⟨_, rfl, rfl, rfl, rfl, rfl, List.append_assoc _ _ _, rfl, rfl, rfl, rfl, rfl, rfl, rfl, rfl⟩

theorem bcdDec_eq_unpacked (b : Byte) : bcdDec b = unpacked b := by
  rw [bcdDec, unpacked, Nat.mul_comm]

/-- GETDT's view of its seven bytes: the first without bit 7, the others whole (R155). -/
def timeView (bytes : List Byte) : List Byte :=
  match bytes with
  | []      => []
  | b :: bs => unpacked (b &&& 0x7F) :: bs.map unpacked

theorem decodeTime_eq_timeView : decodeTime = timeView := by
  funext bytes
  cases bytes with
  | nil => rfl
  | cons b bs => simp [decodeTime, timeView, secDec, maskHalt, bcdDec_eq_unpacked]

theorem readPayload_getdt {u : State} (hop : u.op = Opcode.getdt.byte) : u.readPayload = timeView := by
  funext bytes
  rw [State.readPayload, if_pos hop, decodeTime_eq_timeView]

/-- The other two Reads move their bytes unchanged (R138, R172). -/
theorem readPayload_id {u : State} {op : Opcode} (hop : u.op = op.byte) (hne : op.byte ≠ Opcode.getdt.byte) : u.readPayload = id := by
  funext bytes
  exact if_neg (hop ▸ hne)

theorem getdt_readsAs {s : State} (hlife : s.life = .ready) : ReadsAs .getdt s 0x00 7 timeView :=
  readsAs_of_exec (fun _ hop => readPayload_getdt hop) (exec_startsRead hlife (.inl ⟨rfl, rfl, rfl⟩))

theorem rdram_readsAs {s : State} {offset size : Byte} (hlife : s.life = .ready) (hpos : 1 ≤ size.toNat)
    (hfits : offset.toNat + size.toNat ≤ 56) : ReadsAs (.rdram offset size) s (BitVec.ofNat 8 (offset.toNat + 8)) size id :=
  readsAs_of_exec (fun _ hop => readPayload_id (op := .rdram) hop (by decide)) (exec_startsRead hlife (.inr (.inl ⟨offset, rfl, hpos, hfits, rfl⟩)))

theorem exec_rdram_outside {offset size : Byte} {s : State} (hlife : s.life = .ready) (hout : ¬ ramOk offset size.toNat) :
    exec (.rdram offset size) s = .next ((s.accept .rdram).raise .invalidParameter) :=
  (if_pos hlife).trans (if_neg hout)

/-- Settles O28: refused, or the planner Read of the seven registers. -/
theorem getdtFollowsItsRule : Obligations.GetdtFollowsItsRule := by
  intro s
  refine ⟨fun hlife => exec_bus_notReady trivial (not_ready_of_uninit hlife), fun hlife => ?_⟩
  exact getdt_readsAs hlife

/-- Settles O33: refused, or outside the window, or the planner Read from the biased register. -/
theorem rdramFollowsItsRule : Obligations.RdramFollowsItsRule := by
  intro offset size s
  refine ⟨fun hlife => exec_bus_notReady trivial (not_ready_of_uninit hlife), fun hlife hout => exec_rdram_outside hlife ?_,
    fun hlife hpos hfits => rdram_readsAs hlife hpos hfits⟩
  omega

/-- Settles O41: refused, or the planner Read of any start and count. -/
theorem preadFollowsItsRule : Obligations.PreadFollowsItsRule := by
  intro start count data s
  refine ⟨fun hlife => ⟨exec_bus_notReady trivial (not_ready_of_uninit hlife), exec_bus_notReady trivial (not_ready_of_uninit hlife)⟩,
    fun hlife => readsAs_of_exec (fun _ hop => readPayload_id (op := .pread) hop (by decide)) (exec_startsRead hlife (.inr (.inr rfl)))⟩

/-! ### What GETDT answers -/

/-- A GETDT in flight, or ended: with TransportFailure and no payload, or with the decoding of seven bytes (R155, R156). -/
def GetdtInFlight (s : State) : Prop :=
  s.op = Opcode.getdt.byte ∧
    ((s.phase = .busy ∧ (s.pending = some (.position 0x00 7) ∨ s.pending = some (.receive 7))) ∨
      (s.pending = none ∧
        (s.resp = some ⟨.transportFailure, []⟩ ∨ ∃ bytes, bytes.length = 7 ∧ s.resp = some ⟨.success, timeView bytes⟩)))

theorem getdtInFlight_answered {s : State} {p : Pending} {a : Answer} (h : GetdtInFlight s) (hp : s.pending = some p)
    (hfits : a.fits p.expects = true) : GetdtInFlight (s.answered p a) := by
  obtain ⟨hop, ⟨hbusy, hposition | hreceive⟩ | ⟨hnone, _⟩⟩ := h
  · cases hposition.symm.trans hp
    cases a with
    | fail => exact ⟨hop, .inr ⟨rfl, .inl rfl⟩⟩
    | ok bytes => exact ⟨hop, .inl ⟨hbusy, .inr rfl⟩⟩
  · cases hreceive.symm.trans hp
    cases a with
    | fail => exact ⟨hop, .inr ⟨rfl, .inl rfl⟩⟩
    | ok bytes =>
      have hlen : bytes.length = 7 := by simpa [Answer.fits, Pending.expects] using hfits
      refine ⟨hop, .inr ⟨rfl, .inr ⟨bytes, hlen, ?_⟩⟩⟩
      rw [← readPayload_getdt hop]
      rfl
  · cases hnone.symm.trans hp

theorem life_ready_of_exec_getdt {s t : State} (hexec : exec .getdt s = .next t) : s.life = .ready := by
  by_contra hlife
  cases (exec_bus_notReady (i := .getdt) trivial hlife).symm.trans hexec

theorem getdtInFlight_exec {s t : State} (hexec : exec .getdt s = .next t) : GetdtInFlight t := by
  have hlife := life_ready_of_exec_getdt hexec
  rw [exec_startsRead hlife (.inl ⟨rfl, rfl, rfl⟩)] at hexec
  have hstart : GetdtInFlight ((s.accept .getdt).planRead 0x00 7) := ⟨rfl, .inl ⟨rfl, .inl rfl⟩⟩
  exact run_induction (P := GetdtInFlight) (fun _ _ h => h) (fun _ _ _ h hp hfits => getdtInFlight_answered h hp hfits) hstart hexec

/-- The two responses of a GETDT that has ended (R156). -/
theorem getdt_response {s t : State} (hexec : exec .getdt s = .next t) (hidle : t.phase = .idle) :
    t.resp = some ⟨.transportFailure, []⟩ ∨ ∃ bytes, bytes.length = 7 ∧ t.resp = some ⟨.success, timeView bytes⟩ := by
  obtain ⟨_, ⟨hbusy, _⟩ | ⟨_, hresp⟩⟩ := getdtInFlight_exec hexec
  · cases hbusy.symm.trans hidle
  · exact hresp

theorem length_timeView (bytes : List Byte) : (timeView bytes).length = bytes.length := by
  cases bytes <;> simp [timeView]

/-- A BUSY engine whose operation is GETDT waits on one of the two calls of a Read. -/
theorem pending_of_busy_getdt {s : State} (h : s.Inv) (hbusy : s.phase = .busy) (hop : s.op = 0x04) :
    (∃ start count, s.pending = some (.position start count)) ∨ ∃ count, s.pending = some (.receive count) := by
  obtain ⟨p, hp⟩ := Option.isSome_iff_exists.mp (h.callWhileBusy.mp hbusy)
  have hok := (pendingOk_of_inv h hp).2
  cases p with
  | write data =>
    obtain ⟨_, hwrite, _⟩ := hok
    rw [hop] at hwrite
    exact absurd hwrite (by decide)
  | position start count => exact .inl ⟨start, count, hp⟩
  | receive count => exact .inr ⟨count, hp⟩
  | initHook =>
    obtain ⟨_, hinit, _⟩ := hok
    exact absurd (hop.symm.trans hinit) (by decide)
  | deinitHook =>
    obtain ⟨_, hdeinit, _⟩ := hok
    exact absurd (hop.symm.trans hdeinit) (by decide)

/-- Settles O29: at once the ways a Read ends and the two responses of GETDT; later the FAIL of either call of its Read. -/
theorem getdtNeverPartiallyDecoded : Obligations.GetdtNeverPartiallyDecoded := by
  refine ⟨fun s t hexec => ?_, fun s rest h hbusy hop hinputs => ?_⟩
  · obtain ⟨_, hsendFails, hreceiveFails⟩ := getdt_readsAs (life_ready_of_exec_getdt hexec)
    refine ⟨fun rest hinputs => ?_, fun rest hinputs => ?_, fun hidle => ?_⟩
    · obtain ⟨u, hu, hphase, _, hresp, _⟩ := hsendFails rest hinputs
      cases hexec.symm.trans hu
      exact ⟨hphase, hresp⟩
    · obtain ⟨u, hu, hphase, _, hresp, _⟩ := hreceiveFails rest hinputs
      cases hexec.symm.trans hu
      exact ⟨hphase, hresp⟩
    · exact (getdt_response hexec hidle).imp_right fun ⟨bytes, hlen, hresp⟩ => ⟨_, hresp, (length_timeView bytes).trans hlen⟩
  · rcases pending_of_busy_getdt h hbusy hop with ⟨start, count, hp⟩ | ⟨count, hp⟩ <;>
      exact ⟨_, (step_answered hbusy hinputs hp rfl).trans (settle_done rest rfl), rfl, rfl⟩

/-- The weight of two nibbles does not wrap a byte (R112). -/
theorem unpacked_toNat (b : Byte) : (unpacked b).toNat = 10 * (b.toNat / 16) + b.toNat % 16 := by
  have hlt := b.isLt
  rw [unpacked, BitVec.toNat_ofNat]
  omega

theorem unpacked_toNat_le (b : Byte) : (unpacked b).toNat ≤ 165 := by
  have hlt := b.isLt
  rw [unpacked_toNat]
  omega

theorem unpacked_masked_toNat (b : Byte) : (unpacked (b &&& 0x7F)).toNat = 10 * (b.toNat % 128 / 16) + b.toNat % 16 := by
  rw [unpacked_toNat, toNat_and_7F]
  omega

theorem unpacked_masked_toNat_le (b : Byte) : (unpacked (b &&& 0x7F)).toNat ≤ 85 := by
  rw [unpacked_masked_toNat]
  omega

/-- Settles O30: a successful GETDT holds the decoding of some bytes, which the formula bounds. -/
theorem getdtValuesBounded : Obligations.GetdtValuesBounded := by
  intro s t p hexec hidle hresp
  rcases getdt_response hexec hidle with hfail | ⟨bytes, _, hok⟩
  · cases hfail.symm.trans hresp
  · cases hok.symm.trans hresp
    cases bytes with
    | nil => simp [timeView]
    | cons b bs =>
      refine ⟨fun v hv => ?_, fun v hv => ?_⟩
      · obtain rfl : unpacked (b &&& 0x7F) = v := by simpa [timeView] using hv
        exact unpacked_masked_toNat_le b
      · obtain ⟨c, _, rfl⟩ := List.mem_map.mp (show v ∈ bs.map unpacked from hv)
        exact unpacked_toNat_le c

/-! ### Reading back what was written -/

theorem unpacked_packed {v : Byte} (hv : v.toNat ≤ 99) : unpacked (packed v) = v := by
  apply BitVec.eq_of_toNat_eq
  rw [unpacked_toNat, packed_toNat hv]
  omega

/-- The seconds byte without its halt bit is the packed value (R32). -/
theorem unpacked_masked_secEnc {v : Byte} (halt : Bool) (hv : v.toNat ≤ 79) : unpacked (secEnc v halt &&& 0x7F) = v := by
  apply BitVec.eq_of_toNat_eq
  rw [unpacked_masked_toNat, secEnc_toNat halt (by omega)]
  have htens : v.toNat / 10 ≤ 7 := by omega
  cases halt <;> simp only [Bool.false_eq_true, if_false, if_true] <;> omega

theorem timeView_registerImage {dt : DateTime} (halt : Bool) (hrange : FieldsInRange dt) : timeView (registerImage dt halt) = fields dt := by
  rw [← timeBytes_eq_registerImage halt hrange]
  obtain ⟨hsec, hmin, hhour, ⟨_, hwd⟩, ⟨_, hday⟩, ⟨_, hmonth⟩, hyear⟩ := hrange
  have hback : ∀ {v : Byte}, v.toNat ≤ 99 → unpacked (bcdEnc v) = v := fun hv => by rw [bcdEnc_eq_packed hv, unpacked_packed hv]
  simp only [timeBytes, timeView, fields, List.map_cons, List.map_nil]
  rw [unpacked_masked_secEnc halt (by omega), hback (by omega), hback (by omega), hback (by omega), hback (by omega), hback (by omega),
    hback hyear]

/-- Registers that hold `data` and read as `bytes` make them equal. -/
theorem eq_of_getElem?_eq {bytes data : List Byte} (hlen : bytes.length = data.length) (h : ∀ k, k < data.length → data[k]? = bytes[k]?) :
    bytes = data := by
  refine List.ext_getElem? fun k => ?_
  by_cases hk : k < data.length
  · exact (h k hk).symm
  · rw [List.getElem?_eq_none (by omega), List.getElem?_eq_none (by omega)]

/-- Settles O31: the Write is done, so the bytes that answer the Read are the register image, which decodes to the fields. -/
theorem setdtThenGetdtReadsBack : Obligations.SetdtThenGetdtReadsBack := by
  intro dt halt s rest hlife hcap hrange hinputs
  have hwrites := writesAs_of_startsWrite hlife hcap (.inl ⟨dt, halt, rfl, hrange, rfl, rfl⟩)
  obtain ⟨t, hexec, hdone⟩ := hwrites.1 rest hinputs
  obtain ⟨_, _, _, _, _, _, _, _, _, hready, _, _, hchip⟩ := hdone
  refine ⟨t, hexec, fun bytes rest' hlen hread => ?_⟩
  have hbytes : bytes = registerImage dt halt := by
    refine eq_of_getElem?_eq hlen fun k hk => ?_
    have hin : 0 ≤ k ∧ k < 0 + (registerImage dt halt).length := ⟨Nat.zero_le k, by omega⟩
    exact ((hchip (by simp [registerImage]) k).trans (if_pos hin)).symm.trans (hread k hk)
  have hgetdt := getdt_readsAs (s := { t with inputs := .answer (.ok []) :: .answer (.ok bytes) :: rest' }) (hready.trans hlife)
  obtain ⟨u, hu, _, _, hresp, _⟩ := hgetdt.1 bytes rest' hlen rfl
  exact ⟨u, hu, by rw [hresp, hbytes, timeView_registerImage halt hrange]⟩

/-- Settles O35: the Write is done, so the bytes that answer the Read are the data. -/
theorem wrramThenRdramReadsBack : Obligations.WrramThenRdramReadsBack := by
  intro offset data s rest hlife hcap hpos hfits hinputs
  have hwrites := writesAs_of_startsWrite hlife hcap (.inr (.inl ⟨offset, rfl, hpos, hfits, rfl⟩))
  obtain ⟨t, hexec, hdone⟩ := hwrites.1 rest hinputs
  obtain ⟨_, _, _, _, _, _, _, _, _, hready, _, _, hchip⟩ := hdone
  refine ⟨t, hexec, fun bytes rest' hlen hread => ?_⟩
  have hstart : (BitVec.ofNat 8 (offset.toNat + 8)).toNat = offset.toNat + 8 := by
    rw [BitVec.toNat_ofNat]; omega
  have hsize : (BitVec.ofNat 8 data.length).toNat = data.length := by
    rw [BitVec.toNat_ofNat]; omega
  rw [hstart] at hchip
  have hbytes : bytes = data := by
    refine eq_of_getElem?_eq hlen fun k hk => ?_
    rw [← hread k hk, hchip (by omega), if_pos (by omega), Nat.add_sub_cancel_left]
  have hrdram := rdram_readsAs (s := { t with inputs := .answer (.ok []) :: .answer (.ok bytes) :: rest' })
    (offset := offset) (size := BitVec.ofNat 8 data.length) (hready.trans hlife) (by omega) (by omega)
  obtain ⟨u, hu, _, _, hresp, _⟩ := hrdram.1 bytes rest' (by omega) rfl
  exact ⟨u, hu, by rw [hresp, hbytes]; rfl⟩

end Sys2Proof.Proofs

/-! PROOF. The requests without a bus call: the codec (R110 to R115), the control encoder (R191, R192), the address decoder (R210, R211) and the lifecycle
(R220 to R222); and exactly which requests are refused (R224, R242). -/

namespace Sys2Proof.Proofs

open Sys2Proof.Machine Sys2Proof.Claims

/-! ### Codec -/

theorem exec_bcdenc {v : Byte} (hv : v.toNat ≤ 99) (s : State) : exec (.bcdenc v) s = .next (ended .bcdenc .success [packed v] s) := by
  rw [← bcdEnc_eq_packed hv]
  exact if_pos hv

theorem exec_bcddec (b : Byte) (s : State) : exec (.bcddec b) s = .next (ended .bcddec .success [unpacked b] s) := by
  rw [← bcdDec_eq_unpacked]
  rfl

theorem exec_secenc {v : Byte} (halt : Bool) (hv : v.toNat ≤ 99) (s : State) :
    exec (.secenc v halt) s = .next (ended .secenc .success [secEnc v halt] s) :=
  if_pos hv

theorem exec_secdec (b : Byte) (s : State) : exec (.secdec b) s = .next (ended .secdec .success [unpacked (b &&& 0x7F)] s) := by
  rw [← bcdDec_eq_unpacked]
  rfl

theorem exec_bcdenc_refused {v : Byte} (hv : 100 ≤ v.toNat) (s : State) : exec (.bcdenc v) s = .refused .bcdDomain :=
  if_neg (by omega)

theorem exec_secenc_refused {v : Byte} (halt : Bool) (hv : 100 ≤ v.toNat) (s : State) : exec (.secenc v halt) s = .refused .bcdDomain :=
  if_neg (by omega)

/-- Settles O15: the byte is the packed one. -/
theorem bcdencPacksDigits : Obligations.BcdencPacksDigits := by
  intro v s
  refine ⟨fun hv => ⟨packed v, ?_, ?_, exec_bcdenc hv s⟩, fun hv => exec_bcdenc_refused hv s⟩ <;>
    (rw [packed_toNat hv]; omega)

/-- Settles O16: the value is the unpacked one, and the formula bounds it. -/
theorem bcddecWeighsNibbles : Obligations.BcddecWeighsNibbles := by
  intro b s
  exact ⟨unpacked b, by rw [unpacked_toNat, Nat.mul_comm], unpacked_toNat_le b, exec_bcddec b s⟩

/-- Settles O17: bit 7 of the byte is `halt`, and the packed byte is below it. -/
theorem secencForcesHaltBit : Obligations.SecencForcesHaltBit := by
  intro v halt s
  refine ⟨fun hv => ⟨secEnc v halt, getLsbD_seven_withHalt _ halt, ?_, exec_secenc halt hv s⟩, fun hv => exec_secenc_refused halt hv s⟩
  rw [secEnc_toNat halt hv, packed_toNat hv]
  cases halt <;> simp

/-- Flipping bit 7 is nothing to the mask 0x7F (R114). -/
theorem xor_80_and_7F (b : Byte) : (b ^^^ 0x80) &&& 0x7F = b &&& 0x7F := by
  apply BitVec.eq_of_toNat_eq
  rw [toNat_and_7F, toNat_and_7F, BitVec.toNat_xor]
  exact (Nat.xor_mod_two_pow (n := 7)).trans (by simp)

/-- Settles O18: both bytes have the same low seven bits, whose weight is the value. -/
theorem secdecMasksHaltBit : Obligations.SecdecMasksHaltBit := by
  intro b s
  refine ⟨unpacked (b &&& 0x7F), by rw [unpacked_masked_toNat, Nat.mul_comm], unpacked_masked_toNat_le b, exec_secdec b s, ?_⟩
  rw [exec_secdec, xor_80_and_7F]

theorem packed_unpacked {b : Byte} (htens : b.toNat / 16 ≤ 9) (hunits : b.toNat % 16 ≤ 9) : packed (unpacked b) = b := by
  have hle : (unpacked b).toNat ≤ 99 := by rw [unpacked_toNat]; omega
  apply BitVec.eq_of_toNat_eq
  rw [packed_toNat hle, unpacked_toNat]
  omega

/-- A BCD encode that answers was in its domain. -/
theorem le_99_of_exec_bcdenc {v : Byte} {s t : State} (hexec : exec (.bcdenc v) s = .next t) : v.toNat ≤ 99 := by
  by_contra hv
  cases (exec_bcdenc_refused (by omega) s).symm.trans hexec

/-- Settles O19: the byte answered is the packed or unpacked one, which the other request undoes. -/
theorem codecRoundTrips : Obligations.CodecRoundTrips := by
  intro s t u v w halt
  refine ⟨fun hexec hresp => ?_, fun hv hexec hresp => ?_, fun htens hunits hexec hresp => ?_⟩
  · have hv := le_99_of_exec_bcdenc hexec
    cases (exec_bcdenc hv s).symm.trans hexec
    cases hresp
    rw [exec_bcddec, unpacked_packed hv]
  · cases (exec_secenc halt (by omega) s).symm.trans hexec
    cases hresp
    rw [exec_secdec, unpacked_masked_secEnc halt hv]
  · cases (exec_bcddec v s).symm.trans hexec
    cases hresp
    have hle : (unpacked v).toNat ≤ 99 := by rw [unpacked_toNat]; omega
    rw [exec_bcdenc hle, packed_unpacked htens hunits]

/-! ### Control encoder and address decoder -/

/-- Settles O20: the lookup is R191's table. -/
theorem ctrlencLooksUpMode : Obligations.CtrlencLooksUpMode := by
  intro mode s
  refine ⟨fun c hrow => ?_, fun hmode => ?_⟩
  · show execCtrlenc mode s = _
    rw [execCtrlenc, ctrlEnc_eq_controlRow, hrow]
    rfl
  · show execCtrlenc mode s = _
    rw [execCtrlenc, ctrlEnc_eq_controlRow, controlRow_eq_none hmode]
    rfl

theorem exec_adec {a i : Byte} {cls : RegClass} (h : adec a = (cls, i)) (s : State) :
    exec (.adec a) s = .next (ended .adec .success [cls.byte, i] s) := by
  show execAdec a s = _
  rw [execAdec, h]
  rfl

/-- Settles O21: each range of addresses is one branch of the decoder. -/
theorem adecClassifiesRegister : Obligations.AdecClassifiesRegister := by
  intro a s
  refine ⟨fun ha => exec_adec (if_pos ha) s, fun ha => ?_, fun o ho hin => ?_, fun ha => ?_⟩
  · refine exec_adec (cls := .control) ?_ s
    rw [adec, if_neg (by omega), if_pos ha]
  · refine exec_adec (cls := .ram) ?_ s
    rw [adec, if_neg (by omega), if_neg (by omega), if_pos (by omega)]
    congr 1
    bv_omega
  · refine exec_adec (cls := .unmapped) ?_ s
    rw [adec, if_neg (by omega), if_neg (by omega), if_neg (by omega)]

/-! ### Lifecycle -/

theorem exec_init_incomplete {s : State} (hlife : s.life = .uninit) (hmissing : ¬ s.binding.complete) :
    exec .init s = .next (ended .init .initError [] s) := by
  show execInit s = _
  rw [execInit, if_neg (not_ready_of_uninit hlife)]
  split
  · rfl
  · next hbound =>
    obtain ⟨hsend, hrecv⟩ : s.binding.sendPresent = true ∧ s.binding.recvPresent = true := by simpa using hbound
    have hcap : s.binding.cap < 2 := by
      by_contra hge
      exact hmissing ⟨hsend, hrecv, by omega⟩
    exact if_pos hcap

/-- INIT in UNINIT with a complete configuration: the hook decides, where one is bound (R220). -/
theorem exec_init_complete {s : State} (hlife : s.life = .uninit) (hcomplete : s.binding.complete) :
    exec .init s = if s.binding.initHook then ((s.accept .init).issue .initHook .initHook).run
      else .next (({ s.accept .init with life := .ready }).succeed []) := by
  obtain ⟨hsend, hrecv, hcap⟩ := hcomplete
  show execInit s = _
  rw [execInit, if_neg (not_ready_of_uninit hlife), if_neg (by simp [hsend, hrecv]), if_neg (by omega)]

/-- A call whose answer ends the operation, that answer standing next. -/
theorem run_issue_ended {s : State} {c : Call} {p : Pending} {a : Answer} {rest : List Input} (hinputs : s.inputs = .answer a :: rest)
    (hfits : a.fits p.expects = true) (hends : ((s.issue c p).answered p a).pending = none) :
    (s.issue c p).run = .next { (s.issue c p).answered p a with inputs := rest } :=
  (run_answer (s := s.issue c p) a rfl hinputs hfits).trans (settle_done rest hends)

theorem exec_init_hook {s : State} (hlife : s.life = .uninit) (hcomplete : s.binding.complete) (hhook : s.binding.initHook = true) :
    exec .init s = ((s.accept .init).issue .initHook .initHook).run :=
  (exec_init_complete hlife hcomplete).trans (if_pos hhook)

/-- Settles O22: the branches of INIT, and the one answer to its hook. -/
theorem initFollowsItsRule : Obligations.InitFollowsItsRule := by
  intro s
  refine ⟨fun hlife => if_pos hlife, exec_init_incomplete, fun hlife hcomplete hhook => ?_,
    fun rest hlife hcomplete hhook hinputs => ?_, fun rest hlife hcomplete hhook hinputs => ?_⟩
  · exact (exec_init_complete hlife hcomplete).trans (if_neg (by simp [hhook]))
  · exact (exec_init_hook hlife hcomplete hhook).trans (run_issue_ended (s := s.accept .init) hinputs rfl rfl)
  · exact (exec_init_hook hlife hcomplete hhook).trans (run_issue_ended (s := s.accept .init) hinputs rfl rfl)

theorem exec_deinit_hook {s : State} (hlife : s.life = .ready) (hhook : s.binding.deinitHook = true) :
    exec .deinit s = ((s.accept .deinit).issue .deinitHook .deinitHook).run :=
  (if_neg (by simp [hlife])).trans (if_pos hhook)

/-- Settles O23: the branches of DEINIT, and the one answer to its hook. -/
theorem deinitFollowsItsRule : Obligations.DeinitFollowsItsRule := by
  intro s
  refine ⟨fun hlife => if_pos hlife, fun hlife hhook => ?_, fun rest hlife hhook hinputs => ?_, fun rest hlife hhook hinputs => ?_⟩
  · exact (if_neg (by simp [hlife])).trans (if_neg (by simp [hhook]))
  · exact (exec_deinit_hook hlife hhook).trans (run_issue_ended (s := s.accept .deinit) hinputs rfl rfl)
  · exact (exec_deinit_hook hlife hhook).trans (run_issue_ended (s := s.accept .deinit) hinputs rfl rfl)

/-! ### Refusals -/

theorem isBus_of_opcode {i : Instr} (hop : i.opcode.byte ∈ writeOps ++ readOps) : IsBus i := by
  cases i with
  | setdt | getdt | wrram | rdram | setow | pwrite | pread => trivial
  | init | deinit | bcdenc | bcddec | secenc | secdec | ctrlenc | adec => simp [Instr.opcode, Opcode.byte] at hop

/-- The two ways of being refused (R224, R111, R113). -/
theorem refused_cases {i : Instr} {s : State} {r : Refusal} (hexec : exec i s = .refused r) :
    (r = .notReady ∧ IsBus i ∧ s.life ≠ .ready) ∨
      (r = .bcdDomain ∧ ∃ v : Byte, 100 ≤ v.toNat ∧ (i = .bcdenc v ∨ ∃ halt, i = .secenc v halt)) := by
  cases exec_cases i s with
  | notReady hop hlife h =>
    cases h.symm.trans hexec
    exact .inl ⟨rfl, isBus_of_opcode hop, hlife⟩
  | bcdDomain v hv hi h =>
    cases h.symm.trans hexec
    exact .inr ⟨rfl, v, by omega, hi⟩
  | quiet _ _ _ h | madeReady _ _ h | madeUninit _ h => cases h.symm.trans hexec
  | write _ _ _ _ _ h | read _ _ _ _ h | initHook _ _ _ h | deinitHook _ _ h =>
    exact absurd (h.symm.trans hexec) (settle_never_refuses _ _ r)

/-- Settles O24: `refused_cases` in one direction, each refusal in the other. -/
theorem refusalsAreExactlyTheListed : Obligations.RefusalsAreExactlyTheListed := by
  intro i s
  refine ⟨⟨fun hexec => ?_, fun ⟨hbus, hlife⟩ => exec_bus_notReady hbus hlife⟩, ⟨fun hexec => ?_, ?_⟩, fun r hexec => ?_⟩
  · rcases refused_cases hexec with ⟨_, hbus⟩ | ⟨hr, _⟩
    · exact hbus
    · cases hr
  · rcases refused_cases hexec with ⟨hr, _⟩ | ⟨_, hdomain⟩
    · cases hr
    · exact hdomain
  · rintro ⟨v, hv, rfl | ⟨halt, rfl⟩⟩
    · exact exec_bcdenc_refused hv s
    · exact exec_secenc_refused halt hv s
  · exact (refused_cases hexec).imp And.left And.left

/-! ### A first call without an answer -/

/-- The first frame of a Write is frame 0 of the closed form (R132). -/
theorem frame_at_begin {s : State} {start : Byte} {data : List Byte} (hfit : data.length ≤ 255) :
    State.frame data { s with ptr := start, cur := 0, n := BitVec.ofNat 8 data.length } = planFrame s.binding.cap start data 0 := by
  refine frame_eq_planFrame (s₀ := s) ⟨rfl, rfl, rfl, rfl, ?_, by simp, by simp, fun _ c => ?_⟩
  · rw [BitVec.toNat_ofNat]; omega
  · rw [if_neg (by omega)]

/-- A Write of at least one byte begins with its first frame sent (R131). -/
theorem planWrite_sends {s : State} {start : Byte} {data : List Byte} (hpos : 1 ≤ data.length) (hfit : data.length ≤ 255) :
    s.planWrite start data =
      { s with
        ptr := start, cur := 0, n := BitVec.ofNat 8 data.length, pending := some (.write data),
        calls := s.calls ++ [.send s.binding.slaveAddr (planFrame s.binding.cap start data 0)] } := by
  have hmore : (0 : Byte).toNat < (BitVec.ofNat 8 data.length).toNat := by
    rw [BitVec.toNat_ofNat, Nat.mod_eq_of_lt (by omega)]
    exact hpos
  rw [← frame_at_begin hfit]
  exact sendNext_more hmore

/-- Settles O50: each request stands at its first call, and where no answer stands next it stays there. -/
theorem unansweredCallLeavesBusy : Obligations.UnansweredCallLeavesBusy := by
  refine ⟨fun s hno => ⟨?_, ?_, ?_, ?_⟩, fun s hbusy hinputs => step_busy_waits hbusy hinputs⟩
  · intro i start data hlife _ hwrite
    obtain ⟨hpos, hfit⟩ := length_of_startsWrite hwrite
    rw [exec_startsWrite hlife hwrite, planWrite_sends hpos hfit]
    exact run_noAnswer hno
  · intro i start count hlife hread
    exact (exec_startsRead hlife hread).trans (run_noAnswer hno)
  · intro hlife hcomplete hhook
    exact (exec_init_hook hlife hcomplete hhook).trans (run_noAnswer hno)
  · intro hlife hhook
    exact (exec_deinit_hook hlife hhook).trans (run_noAnswer hno)

end Sys2Proof.Proofs

/-! PROOF. The ports and the reset input (R27, R33, R92, R223, R270, R275), and what the reading and the writing requests leave alone (R138, R155, R171,
R172, R193). -/

namespace Sys2Proof.Proofs

open Sys2Proof.Machine Sys2Proof.Claims

/-! ### The reset input -/

theorem abandon_write {s : State} {data : List Byte} (hp : s.pending = some (.write data)) : s.abandon = s.chipFrameFailed data := by
  simp only [State.abandon, hp]

theorem abandon_chip_of_not_write {s : State} (hno : ∀ data, s.pending ≠ some (.write data)) : s.abandon.chip = s.chip := by
  unfold State.abandon
  split
  · next data hp => exact absurd hp (hno data)
  all_goals rfl

/-- Each register of an abandoned frame holds its old or its new byte (R58, log 11). -/
theorem read_abandon_write {s : State} {data : List Byte} (hp : s.pending = some (.write data))
    (hin : s.ptr.toNat + (s.chunk data).length ≤ mappedSize) (a : Nat) :
    s.abandon.chip.read a = s.chip.read a ∨
      (s.ptr.toNat ≤ a ∧ a < s.ptr.toNat + (s.chunk data).length ∧ s.abandon.chip.read a = (s.chunk data)[a - s.ptr.toNat]?) := by
  rw [abandon_write hp, State.chipFrameFailed_chip, Memory.read_frameFailed s.draws hin]
  by_cases hspan : s.ptr.toNat ≤ a ∧ a < s.ptr.toNat + (s.chunk data).length
  · rw [if_pos hspan]
    split
    · exact .inr ⟨hspan.1, hspan.2, rfl⟩
    · exact .inl rfl
  · exact .inl (if_neg hspan)

/-- Settles O14: `engineReset` field by field, and what `abandon` leaves on the chip. -/
theorem resetInputAbandonsTheOperation : Obligations.ResetInputAbandonsTheOperation := by
  intro s rest hinputs
  refine ⟨_, step_reset hinputs, rfl, rfl, rfl, rfl, State.engineReset_calls _, State.engineReset_binding _, State.engineReset_port _,
    State.engineReset_inputs _, fun hno => ?_, fun data hp hin a => ?_⟩
  · exact abandon_chip_of_not_write (s := { s with inputs := rest }) hno
  · exact read_abandon_write (s := { s with inputs := rest }) hp hin a

/-! ### The ports -/

/-- Settles O43: `step_positionOk`, the pointer being the start at a mapped register. -/
theorem positioningSendSetsTheChipPointer : Obligations.PositioningSendSetsTheChipPointer := by
  intro s start count rest hbusy hp hinputs hrest
  refine ⟨_, step_positionOk hbusy hp hinputs hrest, rfl, fun hmapped => ?_⟩
  have hin : inMap start 1 := by simp only [inMap, mappedSize]; omega
  exact ⟨if_pos hin, if_pos hin⟩

/-- Settles O52: a BUSY engine holds the request. -/
theorem busyPortHoldsTheRequest : Obligations.BusyPortHoldsTheRequest :=
  fun _ _ _ hbusy hinputs => step_busy_request hbusy hinputs

theorem rebind_same {s : State} {b : Binding} (h : b.slaveAddr = s.binding.slaveAddr) : s.rebind b = { s with binding := b } := if_pos h

theorem rebind_other {s : State} {b : Binding} (h : b.slaveAddr ≠ s.binding.slaveAddr) :
    s.rebind b = State.losePointer { s with binding := b, chip := [] } :=
  if_neg h

/-- Settles O53: a binding is taken in UNINIT and IDLE, with the same or another chip addressed, and has no move otherwise. -/
theorem bindingOnlyWhileUninitAndIdle : Obligations.BindingOnlyWhileUninitAndIdle := by
  intro s b rest hinputs
  refine ⟨fun hidle hport hlife => ⟨fun hsame => ?_, fun hother => ?_⟩, fun hidle hport hlife => step_bind_ready hidle hport hlife hinputs,
    fun hbusy => step_busy_bind hbusy hinputs⟩
  · exact (step_bind_uninit hidle hport hlife hinputs).trans (congrArg _ (rebind_same (s := { s with inputs := rest }) hsame))
  · have hstep := (step_bind_uninit hidle hport hlife hinputs).trans (congrArg _ (rebind_other (s := { s with inputs := rest }) hother))
    exact ⟨_, hstep, rfl⟩

/-- Settles O54: no call takes an answer while IDLE, and an OK of another length than the outstanding call expects fits none. -/
theorem answersOutsideTheContractStop : Obligations.AnswersOutsideTheContractStop := by
  refine ⟨fun s a rest hinputs hidle hport => step_idle_answer hidle hport hinputs, fun s bytes rest hbusy hinputs => ?_⟩
  rw [step_answer hbusy hinputs]
  refine ⟨fun count hp hlen => settle_misfit _ rest hp ?_, fun p hp hno hbytes => settle_misfit _ rest hp ?_⟩
  · simpa [Answer.fits, Pending.expects] using hlen
  · have hexpects : p.expects = 0 := by
      cases p with
      | receive count => exact absurd rfl (hno count)
      | write | position | initHook | deinitHook => rfl
    simpa [Answer.fits, hexpects] using hbytes

/-! ### What the reading requests leave alone -/

/-- `s` is `s₀` in all that a Read leaves alone, and waits on no call but those of a Read. -/
structure ReadFrame (s₀ s : State) : Prop where
  ptr     : s.ptr = s₀.ptr
  cur     : s.cur = s₀.cur
  n       : s.n = s₀.n
  life    : s.life = s₀.life
  binding : s.binding = s₀.binding
  port    : s.port = s₀.port
  chip    : s.chip = s₀.chip
  pending : ∀ p ∈ s.pending, (∃ start count, p = .position start count) ∨ ∃ count, p = .receive count

theorem readFrame_answered {s₀ s : State} {p : Pending} (a : Answer) (h : ReadFrame s₀ s) (hp : s.pending = some p) :
    ReadFrame s₀ (s.answered p a) := by
  obtain ⟨hptr, hcur, hn, hlife, hbinding, hport, hchip, hpending⟩ := h
  rcases hpending p (by simp [hp]) with ⟨start, count, rfl⟩ | ⟨count, rfl⟩ <;> cases a <;>
    exact ⟨hptr, hcur, hn, hlife, hbinding, hport, hchip, by simp [State.answered]⟩

theorem not_writeOps_of_readOps {b : Byte} (hread : b ∈ readOps) : b ∉ writeOps := by
  intro hwrite
  simp only [readOps, List.mem_cons, List.not_mem_nil, or_false] at hread
  rcases hread with rfl | rfl | rfl <;> exact absurd hwrite (by decide)

theorem readFrame_of_started {i : Instr} {s u : State} (hread : i.opcode.byte ∈ readOps) (hstart : Started i s u) : ReadFrame s u := by
  cases hstart with
  | ended => exact ⟨rfl, rfl, rfl, rfl, rfl, rfl, rfl, by simp⟩
  | read => exact ⟨rfl, rfl, rfl, rfl, rfl, rfl, rfl, by simp [State.planRead]⟩
  | write _ _ _ hop => exact absurd hop (not_writeOps_of_readOps hread)
  | madeReady hi | madeUninit hi | initHook hi | deinitHook hi => subst hi; exact absurd hread (by decide)

/-- Settles O46: the frame holds where a reading request starts, and both answers of a Read keep it. -/
theorem readingRequestsFrame : Obligations.ReadingRequestsFrame := by
  intro i s t hi hexec
  have hread : i.opcode.byte ∈ readOps := by
    rcases hi with rfl | ⟨o, n, rfl⟩ | ⟨a, n, rfl⟩ <;> simp [Instr.opcode]
  obtain ⟨u, hstart, hrun⟩ := exec_started hexec
  have ht : ReadFrame s t :=
    run_induction (P := ReadFrame s) (fun _ _ h => ⟨h.ptr, h.cur, h.n, h.life, h.binding, h.port, h.chip, h.pending⟩)
      (fun _ _ a h hp _ => readFrame_answered a h hp) (readFrame_of_started hread hstart) hrun
  exact ⟨ht.ptr, ht.cur, ht.n, ht.life, ht.binding, ht.port, ht.chip⟩

/-! ### What the writing requests leave alone -/

/-- `m` reads as the chip of `s₀` did outside the `len` registers from `start`; claimed for a span inside the map only. -/
def ChipOutside (s₀ : State) (start : Byte) (len : Nat) (m : Memory) : Prop :=
  start.toNat + len ≤ 64 → ∀ a, (a < start.toNat ∨ start.toNat + len ≤ a) → m.read a = s₀.chip.read a

/-- What a request leaves alone whose span is the `len` registers from `start`. -/
structure SpanFrame (s₀ : State) (start : Byte) (len : Nat) (s : State) : Prop where
  life    : s.life = s₀.life
  binding : s.binding = s₀.binding
  port    : s.port = s₀.port
  op      : s.op = s₀.op
  chip    : ChipOutside s₀ start len s.chip

/-- Where the planner stands in its Write of `data` from `start`, whatever `CAP` is. -/
structure WriteAt (start : Byte) (data : List Byte) (s : State) : Prop where
  pending : s.pending = some (.write data)
  n       : s.n.toNat = data.length
  cur     : s.cur.toNat ≤ data.length
  ptr     : s.ptr = start + s.cur

/-- A Write in flight, or ended, that has kept to its span. -/
def WriteInSpan (s₀ : State) (start : Byte) (data : List Byte) (s : State) : Prop :=
  SpanFrame s₀ start data.length s ∧ (s.pending = none ∨ WriteAt start data s)

/-- The next chunk lies in the span: it begins at `CUR` and ends at `N` at most. -/
theorem chunk_in_span {start : Byte} {data : List Byte} {s : State} (h : WriteAt start data s) (hin : start.toNat + data.length ≤ 64) :
    start.toNat ≤ s.ptr.toNat ∧ s.ptr.toNat + (s.chunk data).length ≤ start.toNat + data.length := by
  have hcur := h.cur
  have hptr : s.ptr.toNat = start.toNat + s.cur.toNat := by
    rw [h.ptr, BitVec.toNat_add]; omega
  have hlen := chunkLen_le s
  rw [h.n] at hlen
  rw [chunk_length h.n, hptr]
  omega

theorem chipOutside_frameOk {s₀ s : State} {start : Byte} {data : List Byte} (hchip : ChipOutside s₀ start data.length s.chip)
    (h : WriteAt start data s) : ChipOutside s₀ start data.length (s.chip.frameOk s.ptr (s.chunk data)) := by
  intro hin a ha
  obtain ⟨hlow, hhigh⟩ := chunk_in_span h hin
  rw [Memory.read_frameOk (show _ ≤ 64 by omega), if_neg (by omega)]
  exact hchip hin a ha

theorem chipOutside_frameFailed {s₀ s : State} {start : Byte} {data : List Byte} (hchip : ChipOutside s₀ start data.length s.chip)
    (h : WriteAt start data s) (draw : Nat) : ChipOutside s₀ start data.length (Memory.frameFailed draw s.chip s.ptr (s.chunk data)) := by
  intro hin a ha
  obtain ⟨hlow, hhigh⟩ := chunk_in_span h hin
  rw [Memory.read_frameFailed draw (show _ ≤ 64 by omega), if_neg (by omega)]
  exact hchip hin a ha

theorem writeInSpan_sendNext {s₀ s : State} {start : Byte} {data : List Byte} (h : SpanFrame s₀ start data.length s)
    (hn : s.n.toNat = data.length) (hcur : s.cur.toNat ≤ data.length) (hptr : s.ptr = start + s.cur) :
    WriteInSpan s₀ start data (s.sendNext data) := by
  by_cases hmore : s.cur.toNat < s.n.toNat
  · rw [sendNext_more hmore]
    exact ⟨⟨h.life, h.binding, h.port, h.op, h.chip⟩, .inr ⟨rfl, hn, hcur, hptr⟩⟩
  · rw [sendNext_end hmore]
    exact ⟨⟨h.life, h.binding, h.port, h.op, h.chip⟩, .inl rfl⟩

theorem writeInSpan_answered {s₀ s : State} {start : Byte} {data : List Byte} {p : Pending} (a : Answer) (h : WriteInSpan s₀ start data s)
    (hp : s.pending = some p) : WriteInSpan s₀ start data (s.answered p a) := by
  obtain ⟨hframe, hnone | hat⟩ := h
  · cases hnone.symm.trans hp
  cases hat.pending.symm.trans hp
  have hcur := hat.cur
  cases a with
  | fail =>
    exact ⟨⟨hframe.life, hframe.binding, hframe.port, hframe.op, chipOutside_frameFailed hframe.chip hat _⟩, .inl rfl⟩
  | ok bytes =>
    have hadvanced : SpanFrame s₀ start data.length (s.chipFrameOk data).advance :=
      ⟨hframe.life, hframe.binding, hframe.port, hframe.op, chipOutside_frameOk hframe.chip hat⟩
    refine writeInSpan_sendNext hadvanced hat.n ?_ ?_
    · rw [advance_cur_toNat _ (by show s.cur.toNat ≤ s.n.toNat; rw [hat.n]; exact hcur)]
      have hlen := chunkLen_le s
      rw [hat.n] at hlen
      show s.cur.toNat + s.chunkLen ≤ _
      omega
    · show s.ptr + BitVec.ofNat 8 s.chunkLen = start + (s.cur + BitVec.ofNat 8 s.chunkLen)
      rw [hat.ptr, BitVec.add_assoc]

theorem writeInSpan_planWrite (s : State) (start : Byte) {data : List Byte} (hfit : data.length ≤ 255) :
    WriteInSpan s start data (s.planWrite start data) := by
  refine writeInSpan_sendNext (s := { s with ptr := start, cur := 0, n := BitVec.ofNat 8 data.length })
    ⟨rfl, rfl, rfl, rfl, fun _ _ _ => rfl⟩ ?_ (by simp) (by simp)
  rw [BitVec.toNat_ofNat]
  omega

/-- The requests that write, with the span of each: its first register and its length. -/
def Writing (i : Instr) (start : Byte) (len : Nat) : Prop :=
  (∃ dt halt, i = .setdt dt halt ∧ start = 0 ∧ len = 7) ∨
    (∃ offset data, i = .wrram offset data ∧ start = offset + 8 ∧ len = data.length) ∨
    (∃ mode, i = .setow mode ∧ start = 7 ∧ len = 1) ∨
    (∃ data, i = .pwrite start data ∧ len = data.length ∧ len ≤ 255)

/-- In a READY engine a writing request raises InvalidParameter, or is the planner Write of its span. -/
theorem exec_writing {i : Instr} {start : Byte} {len : Nat} {s : State} (hlife : s.life = .ready) (hwriting : Writing i start len) :
    exec i s = .next ((s.accept i.opcode).raise .invalidParameter) ∨
      ∃ data, data.length = len ∧ data.length ≤ 255 ∧ exec i s = ((s.accept i.opcode).planWrite start data).run := by
  rcases hwriting with ⟨dt, halt, rfl, rfl, rfl⟩ | ⟨offset, data, rfl, rfl, rfl⟩ | ⟨mode, rfl, rfl, rfl⟩ | ⟨data, rfl, rfl, hfit⟩
  · by_cases hrange : FieldsInRange dt
    · exact .inr ⟨timeBytes dt halt, rfl, by simp [timeBytes], exec_setdt_inRange halt hlife hrange⟩
    · exact .inl (exec_setdt_outOfRange halt hlife hrange)
  · by_cases hok : ramOk offset data.length
    · exact .inr ⟨data, rfl, by have := hok.2; omega, (if_pos hlife).trans (if_pos hok)⟩
    · exact .inl (exec_wrram_outside hlife hok)
  · cases hrow : controlRow mode with
    | none => exact .inl (exec_setow_unrecognized hlife hrow)
    | some c => exact .inr ⟨[c], rfl, by simp, exec_startsWrite hlife (.inr (.inr (.inl ⟨mode, c, rfl, hrow, rfl, rfl⟩)))⟩
  · exact .inr ⟨data, rfl, hfit, exec_pwrite_ready start data hlife⟩

theorem isBus_of_writing {i : Instr} {start : Byte} {len : Nat} (hwriting : Writing i start len) : IsBus i := by
  rcases hwriting with ⟨_, _, rfl, _⟩ | ⟨_, _, rfl, _⟩ | ⟨_, rfl, _⟩ | ⟨_, rfl, _⟩ <;> trivial

theorem spanFrame_exec {i : Instr} {start : Byte} {len : Nat} {s t : State} (hwriting : Writing i start len)
    (hexec : exec i s = .next t) : SpanFrame (s.accept i.opcode) start len t := by
  by_cases hlife : s.life = .ready
  · rcases exec_writing hlife hwriting with hraise | ⟨data, rfl, hfit, hwrite⟩
    · cases hraise.symm.trans hexec
      exact ⟨rfl, rfl, rfl, rfl, fun _ _ _ => rfl⟩
    · have hinputs : ∀ v ins, WriteInSpan (s.accept i.opcode) start data v →
          WriteInSpan (s.accept i.opcode) start data { v with inputs := ins } := by
        rintro v ins ⟨hframe, hat⟩
        exact ⟨⟨hframe.life, hframe.binding, hframe.port, hframe.op, hframe.chip⟩, hat.imp id fun h => ⟨h.pending, h.n, h.cur, h.ptr⟩⟩
      exact (run_induction hinputs (fun _ _ a h hp _ => writeInSpan_answered a h hp) (writeInSpan_planWrite _ start hfit)
        (hwrite.symm.trans hexec)).1
  · cases (exec_bus_notReady (isBus_of_writing hwriting) hlife).symm.trans hexec

/-- Settles O47: the frame of a writing request, spelled out. -/
theorem writingRequestsFrame : Obligations.WritingRequestsFrame := by
  intro i start len s t hwriting hexec
  obtain ⟨hlife, hbinding, hport, hop, hchip⟩ := spanFrame_exec hwriting hexec
  exact ⟨hlife, hbinding, hport, hop, hchip⟩

end Sys2Proof.Proofs

/-! PROOF. Two runs side by side: a relation between states that every answer keeps, and that lasts from where a request starts, relates the outcomes. From
it follow that WRRAM and RDRAM are PWRITE and PREAD (R173), that CAP above 256 is CAP 256 (R8), that answers may come at once or later (D1, D24), and that
the engine keeps no copy of the chip (R29, R33). -/

namespace Sys2Proof.Proofs

open Sys2Proof.Machine Sys2Proof.Claims

/-! ### The answers of two runs -/

/-- Two outcomes that stop alike, or lead to related states. -/
inductive OutcomesRelated (R : State → State → Prop) : StepOutcome → StepOutcome → Prop where
  | next {s t : State} (h : R s t) : OutcomesRelated R (.next s) (.next t)
  | fault (f : Fault) : OutcomesRelated R (.fault f) (.fault f)
  | refused (r : Refusal) : OutcomesRelated R (.refused r) (.refused r)

/-- Related states wait on the same call, whatever host moves are put before them, and the same answer leads to related states. -/
structure AnswersAlike (R : State → State → Prop) : Prop where
  pending    : ∀ {s t}, R s t → s.pending = t.pending
  withInputs : ∀ {s t} ins, R s t → R { s with inputs := ins } { t with inputs := ins }
  answered   : ∀ {s t} p a, R s t → R (s.answered p a) (t.answered p a)

theorem settle_related {R : State → State → Prop} (hR : AnswersAlike R) (ins : List Input) {s t : State} (h : R s t) :
    OutcomesRelated R (settle ins s) (settle ins t) := by
  induction ins generalizing s t with
  | nil => exact .next (hR.withInputs [] h)
  | cons m rest ih =>
    cases m with
    | request | bind | reset => exact .next (hR.withInputs _ h)
    | answer a =>
      have hpending := hR.pending h
      cases hp : s.pending with
      | none =>
        rw [settle_done _ hp, settle_done _ (hpending.symm.trans hp)]
        exact .next (hR.withInputs _ h)
      | some p =>
        have hp' := hpending.symm.trans hp
        cases hf : a.fits p.expects with
        | false => rw [settle_misfit a rest hp hf, settle_misfit a rest hp' hf]; exact .fault _
        | true => rw [settle_answer a rest hp hf, settle_answer a rest hp' hf]; exact ih (hR.answered p a h)

/-- Where the relation is `t = f s` the outcome of the second run is that of the first seen through `f`. -/
theorem eq_mapNext_of_related {R : State → State → Prop} {f : State → State} (hf : ∀ {s t}, R s t → t = f s) {o o' : StepOutcome}
    (h : OutcomesRelated R o o') : o' = mapNext f o := by
  cases h with
  | next h => exact congrArg _ (hf h)
  | fault | refused => rfl

/-! ### The beginnings of two requests -/

/-- Related states take the same branch at every request, and what a request does before its first answer keeps them related. -/
structure BeginsAlike (R : State → State → Prop) : Prop where
  life       : ∀ {s t}, R s t → s.life = t.life
  slaveAddr  : ∀ {s t}, R s t → s.binding.slaveAddr = t.binding.slaveAddr
  bound      : ∀ {s t}, R s t → s.binding.sendPresent = t.binding.sendPresent ∧ s.binding.recvPresent = t.binding.recvPresent
  capacity   : ∀ {s t}, R s t → (s.binding.cap < 2 ↔ t.binding.cap < 2)
  hooks      : ∀ {s t}, R s t → s.binding.initHook = t.binding.initHook ∧ s.binding.deinitHook = t.binding.deinitHook
  accept     : ∀ {s t} op, R s t → R (s.accept op) (t.accept op)
  withLife   : ∀ {s t} l, R s t → R { s with life := l } { t with life := l }
  finish     : ∀ {s t} code payload, R s t → R (s.finish code payload) (t.finish code payload)
  issue      : ∀ {s t} c p, R s t → R (s.issue c p) (t.issue c p)
  planWrite  : ∀ {s t} start data, R s t → R (s.planWrite start data) (t.planWrite start data)

section Exec

variable {R : State → State → Prop} {Q : StepOutcome → StepOutcome → Prop}

theorem planRead_related (hR : BeginsAlike R) (start count : Byte) {s t : State} (h : R s t) :
    R (s.planRead start count) (t.planRead start count) := by
  unfold State.planRead
  rw [hR.slaveAddr h]
  exact hR.issue _ _ h

theorem ended_related (hR : BeginsAlike R) (hrun : ∀ {u v}, R u v → Q u.run v.run) (code : ResultCode) (payload : List Byte)
    {s t : State} (h : R s t) : Q (.next (s.finish code payload)) (.next (t.finish code payload)) := by
  have hfinish := hrun (hR.finish code payload h)
  rwa [run_done rfl, run_done rfl] at hfinish

theorem execInit_related (hR : BeginsAlike R) (hrun : ∀ {u v}, R u v → Q u.run v.run) {s t : State} (h : R s t) :
    Q (execInit s) (execInit t) := by
  obtain ⟨hsend, hrecv⟩ := hR.bound h
  have haccept := hR.accept .init h
  unfold execInit
  simp only [hR.life h, hsend, hrecv, hR.capacity h, (hR.hooks h).1]
  split_ifs
  · exact ended_related hR hrun _ _ haccept
  · exact ended_related hR hrun _ _ haccept
  · exact ended_related hR hrun _ _ haccept
  · exact hrun (hR.issue _ _ haccept)
  · exact ended_related hR hrun _ _ (hR.withLife _ haccept)

theorem execDeinit_related (hR : BeginsAlike R) (hrun : ∀ {u v}, R u v → Q u.run v.run) {s t : State} (h : R s t) :
    Q (execDeinit s) (execDeinit t) := by
  have haccept := hR.accept .deinit h
  unfold execDeinit
  simp only [hR.life h, (hR.hooks h).2]
  split_ifs
  · exact ended_related hR hrun _ _ haccept
  · exact hrun (hR.issue _ _ haccept)
  · exact ended_related hR hrun _ _ (hR.withLife _ haccept)

/-- A relation kept by what requests begin with carries from their states to their outcomes, once it does so for running the host's answers. -/
theorem exec_related (hR : BeginsAlike R) (hrun : ∀ {u v}, R u v → Q u.run v.run) (hrefused : ∀ r, Q (.refused r) (.refused r))
    (i : Instr) {s t : State} (h : R s t) : Q (exec i s) (exec i t) := by
  have haccept := fun op => hR.accept op h
  have hended := fun op code payload => ended_related hR hrun code payload (haccept op)
  have hwrite := fun op start data => hrun (hR.planWrite start data (haccept op))
  have hread := fun op start count => hrun (planRead_related hR start count (haccept op))
  cases i with
  | init => exact execInit_related hR hrun h
  | deinit => exact execDeinit_related hR hrun h
  | setdt dt halt =>
    simp only [exec, execSetdt, hR.life h]
    split_ifs
    exacts [hwrite _ _ _, hended _ _ _, hrefused _]
  | getdt =>
    simp only [exec, execGetdt, hR.life h]
    split_ifs
    exacts [hread _ _ _, hrefused _]
  | wrram offset data =>
    simp only [exec, execWrram, hR.life h]
    split_ifs
    exacts [hwrite _ _ _, hended _ _ _, hrefused _]
  | rdram offset size =>
    simp only [exec, execRdram, hR.life h]
    split_ifs
    exacts [hread _ _ _, hended _ _ _, hrefused _]
  | setow mode =>
    simp only [exec, execSetow, hR.life h]
    split_ifs
    · cases ctrlEnc mode with
      | some c => exact hwrite _ _ _
      | none => exact hended _ _ _
    · exact hrefused _
  | bcdenc v =>
    simp only [exec, execBcdenc]
    split_ifs
    exacts [hended _ _ _, hrefused _]
  | secenc v halt =>
    simp only [exec, execSecenc]
    split_ifs
    exacts [hended _ _ _, hrefused _]
  | bcddec | secdec | adec => exact hended _ _ _
  | ctrlenc mode =>
    simp only [exec, execCtrlenc]
    cases ctrlEnc mode with
    | some c => exact hended _ _ _
    | none => exact hended _ _ _
  | pwrite start data =>
    simp only [exec, execPwrite, hR.life h]
    split_ifs
    exacts [hwrite _ _ _, hrefused _]
  | pread start count =>
    simp only [exec, execPread, hR.life h]
    split_ifs
    exacts [hread _ _ _, hrefused _]

end Exec

end Sys2Proof.Proofs

/-! PROOF. The statements about two runs: RAM requests and raw requests, two capacities, answers at once or later, two chips. -/

namespace Sys2Proof.Proofs

open Sys2Proof.Machine Sys2Proof.Claims

/-! ### Another opcode in OP -/

/-- `s` with another opcode in `OP`. -/
def withOp (o : Byte) (s : State) : State := { s with op := o }

/-- `t` is `s` but for `OP`, which is `o` there; in neither is it GETDT's, the one opcode by which a payload is decoded. -/
def OpChanged (o : Byte) (s t : State) : Prop := s.op ≠ Opcode.getdt.byte ∧ o ≠ Opcode.getdt.byte ∧ t = withOp o s

theorem sendNext_withOp (data : List Byte) (o : Byte) (s : State) : State.sendNext data (withOp o s) = withOp o (s.sendNext data) := by
  by_cases hmore : s.cur.toNat < s.n.toNat
  · rw [sendNext_more hmore]
    exact sendNext_more (s := withOp o s) hmore
  · rw [sendNext_end hmore]
    exact sendNext_end (s := withOp o s) hmore

theorem readPayload_withOp {s : State} {o : Byte} (hs : s.op ≠ Opcode.getdt.byte) (ho : o ≠ Opcode.getdt.byte) (bytes : List Byte) :
    (withOp o s).readPayload bytes = s.readPayload bytes :=
  (if_neg ho).trans (if_neg hs).symm

theorem answered_withOp {s : State} {o : Byte} (hs : s.op ≠ Opcode.getdt.byte) (ho : o ≠ Opcode.getdt.byte) (p : Pending) (a : Answer) :
    (withOp o s).answered p a = withOp o (s.answered p a) := by
  cases p <;> cases a
  case write.ok data bytes => exact sendNext_withOp data o (s.chipFrameOk data).advance
  case receive.ok count bytes =>
    show (withOp o s.losePointer).succeed ((withOp o s).readPayload bytes) = _
    rw [readPayload_withOp hs ho]
    rfl
  all_goals rfl

theorem opChanged_answersAlike (o : Byte) : AnswersAlike (OpChanged o) where
  pending := by rintro s t ⟨_, _, rfl⟩; rfl
  withInputs := by rintro s t ins ⟨hs, ho, rfl⟩; exact ⟨hs, ho, rfl⟩
  answered := by
    rintro s t p a ⟨hs, ho, rfl⟩
    exact ⟨by rwa [answered_op], ho, answered_withOp hs ho p a⟩

theorem run_opChanged {o : Byte} {s t : State} (h : OpChanged o s t) : t.run = mapNext (withOp o) s.run := by
  have hinputs : t.inputs = s.inputs := by rw [h.2.2]; rfl
  have hsettle := settle_related (opChanged_answersAlike o) s.inputs h
  rw [State.run, hinputs]
  exact eq_mapNext_of_related (fun h => h.2.2) hsettle

/-- Settles O34: both requests begin the same Write or Read with another opcode in `OP`, which neither's answers look at. -/
theorem ramRequestsAreThinWrappers : Obligations.RamRequestsAreThinWrappers := by
  intro offset size data s hlife
  refine ⟨fun hpos hfits => ?_, fun hpos hfits => ?_⟩
  · have hwrram : exec (.wrram offset data) s = ((s.accept .wrram).planWrite (offset + 8) data).run :=
      (if_pos hlife).trans (if_pos ⟨hpos, hfits⟩)
    have hop : ((s.accept .pwrite).planWrite (offset + 8) data).op = Opcode.pwrite.byte := sendNext_op _ _
    rw [hwrram, exec_pwrite_ready _ _ hlife]
    exact run_opChanged ⟨by rw [hop]; decide, by decide, sendNext_withOp data 0x05 { s.accept .pwrite with ptr := offset + 8, cur := 0, n := _ }⟩
  · have hrdram : exec (.rdram offset size) s = ((s.accept .rdram).planRead (offset + 8) size).run :=
      (if_pos hlife).trans (if_pos ⟨hpos, hfits⟩)
    have hne : Opcode.pread.byte ≠ Opcode.getdt.byte := by decide
    rw [hrdram, exec_startsRead hlife (.inr (.inr rfl))]
    exact run_opChanged ⟨hne, by decide, rfl⟩

/-! ### Another capacity -/

/-- `s` has `CAP = 256`, and `t` is `s` with `CAP = c`, which is larger or the same. -/
def CapRaised (c : Nat) (s t : State) : Prop := s.binding.cap = 256 ∧ 256 ≤ c ∧ t = withCap c s

/-- A chunk has at most 255 bytes whatever `CAP` is, because `N` is a byte. -/
theorem chunkLen_withCap {s : State} {c : Nat} (hcap : s.binding.cap = 256) (hc : 256 ≤ c) : (withCap c s).chunkLen = s.chunkLen := by
  have hn := s.n.isLt
  show min (c - 1) (s.n.toNat - s.cur.toNat) = min (s.binding.cap - 1) _
  omega

theorem chunk_withCap {s : State} {c : Nat} (hcap : s.binding.cap = 256) (hc : 256 ≤ c) (data : List Byte) :
    (withCap c s).chunk data = s.chunk data := by
  rw [State.chunk, chunkLen_withCap hcap hc]
  rfl

theorem sendNext_withCap {s : State} {c : Nat} (hcap : s.binding.cap = 256) (hc : 256 ≤ c) (data : List Byte) :
    (withCap c s).sendNext data = withCap c (s.sendNext data) := by
  by_cases hmore : s.cur.toNat < s.n.toNat
  · rw [sendNext_more hmore, sendNext_more (s := withCap c s) hmore, State.frame, chunk_withCap hcap hc]
    rfl
  · rw [sendNext_end hmore]
    exact sendNext_end (s := withCap c s) hmore

theorem advance_withCap {s : State} {c : Nat} (hcap : s.binding.cap = 256) (hc : 256 ≤ c) :
    (withCap c s).advance = withCap c s.advance := by
  rw [State.advance, chunkLen_withCap hcap hc]
  rfl

theorem chipFrameOk_withCap {s : State} {c : Nat} (hcap : s.binding.cap = 256) (hc : 256 ≤ c) (data : List Byte) :
    (withCap c s).chipFrameOk data = withCap c (s.chipFrameOk data) := by
  rw [State.chipFrameOk, chunk_withCap hcap hc]
  rfl

theorem chipFrameFailed_withCap {s : State} {c : Nat} (hcap : s.binding.cap = 256) (hc : 256 ≤ c) (data : List Byte) :
    (withCap c s).chipFrameFailed data = withCap c (s.chipFrameFailed data) := by
  rw [State.chipFrameFailed, chunk_withCap hcap hc]
  rfl

theorem answered_withCap {s : State} {c : Nat} (hcap : s.binding.cap = 256) (hc : 256 ≤ c) (p : Pending) (a : Answer) :
    (withCap c s).answered p a = withCap c (s.answered p a) := by
  cases p <;> cases a
  case write.ok data bytes =>
    show ((withCap c s).chipFrameOk data).advance.sendNext data = _
    rw [chipFrameOk_withCap hcap hc, advance_withCap (s := s.chipFrameOk data) hcap hc,
      sendNext_withCap (s := (s.chipFrameOk data).advance) hcap hc]
    rfl
  case write.fail data =>
    show ((withCap c s).chipFrameFailed data).raise .transportFailure = _
    rw [chipFrameFailed_withCap hcap hc]
    rfl
  all_goals rfl

theorem capRaised_answersAlike (c : Nat) : AnswersAlike (CapRaised c) where
  pending := by rintro s t ⟨_, _, rfl⟩; rfl
  withInputs := by rintro s t ins ⟨hcap, hc, rfl⟩; exact ⟨hcap, hc, rfl⟩
  answered := by
    rintro s t p a ⟨hcap, hc, rfl⟩
    exact ⟨by rwa [answered_binding], hc, answered_withCap hcap hc p a⟩

theorem capRaised_beginsAlike (c : Nat) : BeginsAlike (CapRaised c) where
  life := by rintro s t ⟨_, _, rfl⟩; rfl
  slaveAddr := by rintro s t ⟨_, _, rfl⟩; rfl
  bound := by rintro s t ⟨_, _, rfl⟩; exact ⟨rfl, rfl⟩
  capacity := by
    rintro s t ⟨hcap, hc, rfl⟩
    show s.binding.cap < 2 ↔ c < 2
    omega
  hooks := by rintro s t ⟨_, _, rfl⟩; exact ⟨rfl, rfl⟩
  accept := by rintro s t op ⟨hcap, hc, rfl⟩; exact ⟨hcap, hc, rfl⟩
  withLife := by rintro s t l ⟨hcap, hc, rfl⟩; exact ⟨hcap, hc, rfl⟩
  finish := by rintro s t code payload ⟨hcap, hc, rfl⟩; exact ⟨hcap, hc, rfl⟩
  issue := by rintro s t call p ⟨hcap, hc, rfl⟩; exact ⟨hcap, hc, rfl⟩
  planWrite := by
    rintro s t start data ⟨hcap, hc, rfl⟩
    refine ⟨?_, hc, sendNext_withCap (s := { s with ptr := start, cur := 0, n := _ }) hcap hc data⟩
    exact (congrArg Binding.cap (sendNext_binding data _)).trans hcap

/-- Settles O44: with `CAP` 256 or more every chunk is the same. -/
theorem capAbove256BehavesAs256 : Obligations.CapAbove256BehavesAs256 := by
  intro i s c _ hc
  have hraised : CapRaised c (withCap 256 s) (withCap c s) := ⟨rfl, hc, rfl⟩
  refine exec_related (Q := fun o o' => o' = mapNext (withCap c) o) (capRaised_beginsAlike c) ?_ (fun _ => rfl) i hraised
  rintro u v ⟨hcap, hc, rfl⟩
  exact eq_mapNext_of_related (fun h => h.2.2) (settle_related (capRaised_answersAlike c) u.inputs ⟨hcap, hc, rfl⟩)

/-! ### Answers at once or later -/

/-- `s` has no host move waiting, and `t` is `s` with `ins` waiting. -/
def MovesAdded (ins : List Input) (s t : State) : Prop := s.inputs = [] ∧ t = { s with inputs := ins }

theorem movesAdded_beginsAlike (ins : List Input) : BeginsAlike (MovesAdded ins) where
  life := by rintro s t ⟨_, rfl⟩; rfl
  slaveAddr := by rintro s t ⟨_, rfl⟩; rfl
  bound := by rintro s t ⟨_, rfl⟩; exact ⟨rfl, rfl⟩
  capacity := by rintro s t ⟨_, rfl⟩; exact Iff.rfl
  hooks := by rintro s t ⟨_, rfl⟩; exact ⟨rfl, rfl⟩
  accept := by rintro s t op ⟨hs, rfl⟩; exact ⟨hs, rfl⟩
  withLife := by rintro s t l ⟨hs, rfl⟩; exact ⟨hs, rfl⟩
  finish := by rintro s t code payload ⟨hs, rfl⟩; exact ⟨hs, rfl⟩
  issue := by rintro s t call p ⟨hs, rfl⟩; exact ⟨hs, rfl⟩
  planWrite := by
    rintro s t start data ⟨hs, rfl⟩
    exact ⟨(planWrite_inputs start data s).trans hs, sendNext_withInputs data ins { s with ptr := start, cur := 0, n := _ }⟩

/-- Where a request leads without a host move waiting, it goes on from there with the moves that are added. -/
theorem exec_withMoves {i : Instr} {s t : State} (hexec : exec i { s with inputs := [] } = .next t) (ins : List Input) :
    exec i { s with inputs := ins } = settle ins t := by
  refine exec_related (Q := fun o o' => ∀ t, o = .next t → o' = settle ins t) (movesAdded_beginsAlike ins) ?_ (fun _ _ h => by cases h) i
    (s := { s with inputs := [] }) ⟨rfl, rfl⟩ t hexec
  rintro u v ⟨hnone, rfl⟩ t hrun
  rw [State.run, hnone, settle_nil] at hrun
  cases hrun
  exact (settle_withInputs ins ins u).trans (settle_withInputs ins [] u).symm

/-- A BUSY engine goes on with an answer and the moves behind it. -/
theorem step_withAnswer {s : State} (hbusy : s.phase = .busy) (a : Answer) (rest : List Input) :
    step { s with inputs := .answer a :: rest } = settle (.answer a :: rest) s :=
  (step_answer (s := { s with inputs := .answer a :: rest }) hbusy rfl).trans (settle_withInputs _ _ _)

/-- Settles O55: a request and a BUSY step run `settle` on the moves, and `settle` takes one answer at a time. -/
theorem answersAtOnceOrLaterAgree : Obligations.AnswersAtOnceOrLaterAgree := by
  refine ⟨fun i s t a rest hexec => ?_, fun s a moves hinv hbusy => ?_⟩
  · rw [exec_withMoves hexec]
    refine ⟨fun hbusy => (step_withAnswer hbusy a rest).symm, fun hidle => ?_⟩
    rcases requestEndsOrWaits i _ t hexec with ⟨_, hnone, _⟩ | ⟨hbusy, _⟩
    · exact settle_done _ hnone
    · cases hbusy.symm.trans hidle
  · obtain ⟨p, hp⟩ := Option.isSome_iff_exists.mp (hinv.callWhileBusy.mp hbusy)
    rw [step_withAnswer hbusy, step_withAnswer hbusy]
    cases hfits : a.fits p.expects with
    | false =>
      rw [settle_misfit a _ hp hfits, settle_misfit a _ hp hfits]
      exact ⟨fun _ h => h, (fun _ h => by cases h)⟩
    | true =>
      rw [settle_answer a _ hp hfits, settle_answer a _ hp hfits, settle_nil]
      refine ⟨(fun _ h => by cases h), fun t ht => ?_⟩
      cases ht
      have hnext : (s.answered p a).Inv := inv_answered a hinv hp
      refine ⟨?_, ?_⟩
      · rintro hbusy' b rest rfl
        exact (step_withAnswer (s := s.answered p a) hbusy' b rest).symm
      · rintro (hidle | hno)
        · have hnone : (s.answered p a).pending = none := pending_eq_none_of_idle hnext hidle
          exact settle_done _ hnone
        · exact settle_noAnswer hno _

/-! ### Another chip -/

/-- Two states that differ in the chip and the count of free values only. -/
def SameButChip (s t : State) : Prop := withoutChip s = withoutChip t

theorem sendNext_withoutChip (data : List Byte) (s : State) :
    withoutChip (s.sendNext data) = withoutChip ((withoutChip s).sendNext data) := by
  by_cases hmore : s.cur.toNat < s.n.toNat
  · rw [sendNext_more hmore, sendNext_more (s := withoutChip s) hmore]
    rfl
  · rw [sendNext_end hmore, sendNext_end (s := withoutChip s) hmore]
    rfl

/-- What an answer does to all but the chip depends on all but the chip. -/
theorem answered_withoutChip (p : Pending) (a : Answer) (s : State) :
    withoutChip (s.answered p a) = withoutChip ((withoutChip s).answered p a) := by
  cases p <;> cases a
  case write.ok data bytes =>
    exact (sendNext_withoutChip data (s.chipFrameOk data).advance).trans
      (sendNext_withoutChip data ((withoutChip s).chipFrameOk data).advance).symm
  all_goals rfl

/-- An operation whose effect on all but the chip depends on all but the chip keeps two states the same but for the chip. -/
theorem sameButChip_congr {f : State → State} (hf : ∀ s, withoutChip (f s) = withoutChip (f (withoutChip s))) {s t : State}
    (h : SameButChip s t) : SameButChip (f s) (f t) := by
  unfold SameButChip at h ⊢
  rw [hf s, h, ← hf t]

/-- They agree in every field but the three that `withoutChip` clears. -/
theorem eq_of_sameButChip {α : Type} (f : State → α) (hf : ∀ s, f (withoutChip s) = f s) {s t : State} (h : SameButChip s t) : f s = f t :=
  (hf s).symm.trans ((congrArg f h).trans (hf t))

theorem inputs_of_sameButChip {s t : State} (h : SameButChip s t) : s.inputs = t.inputs := eq_of_sameButChip State.inputs (fun _ => rfl) h

theorem binding_of_sameButChip {s t : State} (h : SameButChip s t) : s.binding = t.binding := eq_of_sameButChip State.binding (fun _ => rfl) h

theorem sameButChip_answersAlike : AnswersAlike SameButChip where
  pending h := eq_of_sameButChip State.pending (fun _ => rfl) h
  withInputs ins h := sameButChip_congr (f := fun s => { s with inputs := ins }) (fun _ => rfl) h
  answered p a h := sameButChip_congr (answered_withoutChip p a) h

theorem sameButChip_beginsAlike : BeginsAlike SameButChip where
  life h := eq_of_sameButChip State.life (fun _ => rfl) h
  slaveAddr h := congrArg Binding.slaveAddr (binding_of_sameButChip h)
  bound h := ⟨congrArg Binding.sendPresent (binding_of_sameButChip h), congrArg Binding.recvPresent (binding_of_sameButChip h)⟩
  capacity h := by rw [binding_of_sameButChip h]
  hooks h := ⟨congrArg Binding.initHook (binding_of_sameButChip h), congrArg Binding.deinitHook (binding_of_sameButChip h)⟩
  accept op h := sameButChip_congr (f := State.accept op) (fun _ => rfl) h
  withLife l h := sameButChip_congr (f := fun s => { s with life := l }) (fun _ => rfl) h
  finish code payload h := sameButChip_congr (f := State.finish code payload) (fun _ => rfl) h
  issue c p h := sameButChip_congr (f := State.issue c p) (fun _ => rfl) h
  planWrite start data h :=
    sameButChip_congr (f := State.planWrite start data)
      (fun s => sendNext_withoutChip data { s with ptr := start, cur := 0, n := BitVec.ofNat 8 data.length }) h

/-- Outcomes that stop alike, or lead to states that are the same but for the chip. -/
abbrev SameOutcomeButChip (o o' : StepOutcome) : Prop := mapNext withoutChip o = mapNext withoutChip o'

theorem sameOutcomeButChip_next {s t : State} (h : SameButChip s t) : SameOutcomeButChip (.next s) (.next t) :=
  congrArg Host.Outcome.next h

theorem sameOutcomeButChip_of_related {o o' : StepOutcome} (h : OutcomesRelated SameButChip o o') : SameOutcomeButChip o o' := by
  cases h with
  | next h => exact sameOutcomeButChip_next h
  | fault | refused => rfl

theorem settle_sameButChip (ins : List Input) {s t : State} (h : SameButChip s t) : SameOutcomeButChip (settle ins s) (settle ins t) :=
  sameOutcomeButChip_of_related (settle_related sameButChip_answersAlike ins h)

theorem exec_sameButChip (i : Instr) {s t : State} (h : SameButChip s t) : SameOutcomeButChip (exec i s) (exec i t) := by
  refine exec_related (Q := SameOutcomeButChip) sameButChip_beginsAlike (fun {u v} huv => ?_) (fun _ => rfl) i h
  rw [State.run, State.run, inputs_of_sameButChip huv]
  exact settle_sameButChip _ huv

theorem runRequest_sameButChip (bytes : List Byte) {s t : State} (h : SameButChip s t) :
    SameOutcomeButChip (runRequest bytes s) (runRequest bytes t) := by
  unfold runRequest
  cases decode bytes with
  | ok i => exact exec_sameButChip i h
  | error e =>
    cases e with
    | noRequest => exact sameOutcomeButChip_next h
    | illegalOp | malformed => rfl

theorem rebind_sameButChip (b : Binding) {s t : State} (h : SameButChip s t) : SameButChip (s.rebind b) (t.rebind b) := by
  refine sameButChip_congr (f := State.rebind b) (fun u => ?_) h
  by_cases hsame : b.slaveAddr = u.binding.slaveAddr
  · rw [rebind_same hsame, rebind_same (s := withoutChip u) hsame]
    rfl
  · rw [rebind_other hsame, rebind_other (s := withoutChip u) hsame]
    rfl

theorem withInputs_sameButChip (ins : List Input) {s t : State} (h : SameButChip s t) :
    SameButChip { s with inputs := ins } { t with inputs := ins } :=
  sameButChip_answersAlike.withInputs ins h

theorem step_sameButChip {s t : State} (h : SameButChip s t) (hno : ∀ rest, s.inputs ≠ .reset :: rest) :
    SameOutcomeButChip (step s) (step t) := by
  have hinputs : t.inputs = s.inputs := (inputs_of_sameButChip h).symm
  have hport : t.port = s.port := (eq_of_sameButChip State.port (fun _ => rfl) h).symm
  have hphase : t.phase = s.phase := (eq_of_sameButChip State.phase (fun _ => rfl) h).symm
  have hlife : t.life = s.life := (eq_of_sameButChip State.life (fun _ => rfl) h).symm
  cases hp : s.phase with
  | idle =>
    rw [hp] at hphase
    cases hheld : s.port with
    | cons bytes rest =>
      rw [step_held hp hheld hno, step_held hphase (hport.trans hheld) (hinputs ▸ hno)]
      exact runRequest_sameButChip bytes (sameButChip_congr (f := fun s => { s with port := rest }) (fun _ => rfl) h)
    | nil =>
      rw [hheld] at hport
      cases hi : s.inputs with
      | nil =>
        rw [step_idle_waits hp hheld hi, step_idle_waits hphase hport (hinputs.trans hi)]
        exact sameOutcomeButChip_next h
      | cons m rest =>
        cases m with
        | request bytes =>
          rw [step_request hp hheld hi, step_request hphase hport (hinputs.trans hi)]
          exact runRequest_sameButChip bytes (withInputs_sameButChip rest h)
        | answer a => rw [step_idle_answer hp hheld hi, step_idle_answer hphase hport (hinputs.trans hi)]
        | bind b =>
          cases hl : s.life with
          | uninit =>
            rw [step_bind_uninit hp hheld hl hi, step_bind_uninit hphase hport (hlife.trans hl) (hinputs.trans hi)]
            exact sameOutcomeButChip_next (rebind_sameButChip b (withInputs_sameButChip rest h))
          | ready => rw [step_bind_ready hp hheld hl hi, step_bind_ready hphase hport (hlife.trans hl) (hinputs.trans hi)]
        | reset => exact absurd hi (hno rest)
  | busy =>
    rw [hp] at hphase
    cases hi : s.inputs with
    | nil =>
      rw [step_busy_waits hp hi, step_busy_waits hphase (hinputs.trans hi)]
      exact sameOutcomeButChip_next h
    | cons m rest =>
      cases m with
      | request bytes =>
        rw [step_busy_request hp hi, step_busy_request hphase (hinputs.trans hi)]
        exact sameOutcomeButChip_next (sameButChip_congr (f := State.hold bytes) (fun _ => rfl) (withInputs_sameButChip rest h))
      | answer a =>
        rw [step_answer hp hi, step_answer hphase (hinputs.trans hi)]
        exact settle_sameButChip _ h
      | bind b => rw [step_busy_bind hp hi, step_busy_bind hphase (hinputs.trans hi)]
      | reset => exact absurd hi (hno rest)

/-- Settles O56: no branch of a request or a step looks at the chip. -/
theorem engineKeepsNoCopyOfTheChip : Obligations.EngineKeepsNoCopyOfTheChip :=
  fun _ _ h => ⟨fun i => exec_sameButChip i h, fun hno => step_sameButChip h hno⟩

end Sys2Proof.Proofs

/-! PROOF. The assembler (R96): every accepted line is a well-formed request, and every row of the table assembles to its bytes. -/

namespace Sys2Proof.Proofs

open Sys2Proof.Machine Sys2Proof.Claims Sys2Proof.Machine.Assembler

/-! ### Accepted lines -/

/-- A data list is accepted with exactly `size` bytes, which a byte bounds by 255 (R84, R85). -/
theorem dataFits_of_length_eq {data : List Byte} {size : Byte} (h : data.length = size.toNat) : dataFits data = true := by
  have hsize := size.isLt
  exact decide_eq_true (by omega)

/-- Of the rows of R96 only the two with a data list could stand for an ill-formed request. -/
theorem request_wf {op : Opcode} {os : List Operand} {i : Instr} (h : request op os = some i) : i.wf = true := by
  revert h
  fun_cases request op os <;> intro h
  -- the two rows with a data list
  case case8 hlen | case11 hlen =>
    cases h
    exact dataFits_of_length_eq hlen
  -- the rows that map one operand's value to a request
  case case18 | case19 | case20 | case21 | case22 | case23 | case25 | case26 =>
    obtain ⟨_, _, rfl⟩ := Option.map_eq_some_iff.mp h
    rfl
  all_goals cases h
  all_goals rfl

theorem line_wf {cs : List Char} {i : Instr} (h : line cs = some i) : i.wf = true := by
  unfold line at h
  split at h
  · split at h
    · exact request_wf h
    · cases h
  · cases h

/-! ### Rows -/

/-- A row with one byte operand. -/
theorem assemble_byteRow {op : Opcode} {f : Byte → Instr} (hrow : ∀ u, request op [.word u] = (byte u).map f) {u : List Char} {v : Byte}
    (h : Numeral u v) : assemble (rowText (mnemonic op) [u]) = some (encode (f v)) := by
  refine assemble_words (by simpa using h.isWord) (by simp) ?_
  rw [List.map_singleton, hrow, h.byte, Option.map_some]

/-- A row with a raw value `#m`. -/
theorem assemble_rawRow {op : Opcode} {f : Byte → Instr} (hrow : ∀ v, request op [.raw v] = some (f v)) {u : List Char} {v : Byte}
    (h : Numeral u v) : assemble (rowText (mnemonic op) ['#' :: u]) = some (encode (f v)) := by
  rw [assemble, line_raw h, hrow, Option.map_some]

theorem modeWord_isWord (m : OutputMode) : IsWord (modeWord m) := by
  cases m <;> simp [IsWord, modeWord, plain, openBrace, closeBrace]

theorem mode_modeWord (m : OutputMode) : mode (.word (modeWord m)) = some m.byte := by
  cases m <;> decide

/-- A row with one of the six mode words. -/
theorem assemble_modeRow {op : Opcode} {f : Byte → Instr} (hrow : ∀ u, request op [.word u] = (mode (.word u)).map f) (m : OutputMode) :
    assemble (rowText (mnemonic op) [modeWord m]) = some (encode (f m.byte)) := by
  refine assemble_words (by simpa using modeWord_isWord m) (by simp) ?_
  rw [List.map_singleton, hrow, mode_modeWord, Option.map_some]

theorem assemble_bareRow {op : Opcode} {i : Instr} (hrow : request op [] = some i) : assemble (mnemonic op) = some (encode i) := by
  rw [assemble, line_bare, hrow, Option.map_some]

/-- SECENC with HALT. -/
theorem assemble_secenc_halt {u : List Char} {v : Byte} (h : Numeral u v) :
    assemble (rowText (mnemonic .secenc) [u, haltWord]) = some [0x12, v, 0x01] := by
  refine assemble_words (i := .secenc v true) (by simpa using ⟨h.isWord, haltWord_isWord⟩) (by simp) ?_
  simp [request, h.byte]

/-- SETDT with its seven numerals, and with HALT after them. -/
theorem assemble_setdt {texts : List (List Char)} {dt : DateTime} (h : List.Forall₂ Numeral texts (fields dt)) :
    assemble (rowText (mnemonic .setdt) texts) = some (encode (.setdt dt false)) ∧
      assemble (rowText (mnemonic .setdt) (texts ++ [haltWord])) = some (encode (.setdt dt true)) := by
  have hwords := numerals_areWords h
  have hwords' : ∀ u ∈ texts ++ [haltWord], IsWord u := by
    simpa [or_imp, forall_and] using ⟨hwords, haltWord_isWord⟩
  unfold fields at h
  match texts, h with
  | _, .cons hs (.cons hmi (.cons hh (.cons hwd (.cons hd (.cons hmo (.cons hy .nil)))))) =>
    refine ⟨assemble_words hwords (by simp) ?_, assemble_words hwords' (by simp) ?_⟩ <;>
      simp [request, hs.byte, hmi.byte, hh.byte, hwd.byte, hd.byte, hmo.byte, hy.byte]

/-- A row with two byte operands. -/
theorem assemble_twoByteRow {op : Opcode} {i : Instr} {u w : List Char} {a n : Byte} (hu : Numeral u a) (hw : Numeral w n)
    (hrow : request op [.word u, .word w] = some i) : assemble (rowText (mnemonic op) [u, w]) = some (encode i) :=
  assemble_words (by simpa using ⟨hu.isWord, hw.isWord⟩) (by simp) hrow

/-- A row with a data list: its bytes where the list has exactly `size` bytes, and nothing otherwise. -/
theorem assemble_dataRow {op : Opcode} {f : Byte → List Byte → Instr} {u w : List Char} {a n : Byte} {items : List (List Char)}
    {data : List Byte} (hu : Numeral u a) (hw : Numeral w n) (hitems : List.Forall₂ Numeral items data) (hne : data ≠ [])
    (hrow : request op [.word u, .word w, .list data] = if data.length = n.toNat then some (f a data) else none) :
    assemble (rowText (mnemonic op) [u, w, listText items]) = if data.length = n.toNat then some (encode (f a data)) else none := by
  have hitems' : items ≠ [] := by
    rintro rfl
    cases hitems
    exact hne rfl
  rw [assemble, line_data hu.isWord hw.isWord hitems hitems', hrow, apply_ite (Option.map encode), Option.map_some, Option.map_none]

/-- The count byte of a list of exactly `size` bytes is `size`. -/
theorem ite_count_eq {data : List Byte} {n : Byte} (b a : Byte) :
    (if data.length = n.toNat then some (b :: a :: BitVec.ofNat 8 data.length :: data) else none) =
      if data.length = n.toNat then some (b :: a :: n :: data) else none := by
  split
  · next hlen => rw [hlen, BitVec.ofNat_toNat, BitVec.setWidth_eq]
  · rfl

/-- Settles O9: `line_wf`, and each row of the table. -/
theorem assembledLinesAreRequests : Obligations.AssembledLinesAreRequests := by
  refine ⟨fun _ _ h => line_wf h, assemble_comment, assemble_bareRow (op := .init) rfl, assemble_bareRow (op := .deinit) rfl,
    assemble_bareRow (op := .getdt) rfl, fun texts dt h => assemble_setdt h, fun u v h => ?_, ?_, fun u w a n hu hw => ?_,
    fun u w a n items data hu hw hitems hne => ?_⟩
  · exact ⟨assemble_byteRow (op := .bcdenc) (fun _ => rfl) h, assemble_byteRow (op := .bcddec) (fun _ => rfl) h,
      assemble_byteRow (op := .secdec) (fun _ => rfl) h, assemble_byteRow (op := .adec) (fun _ => rfl) h,
      assemble_byteRow (op := .secenc) (fun _ => rfl) h, assemble_secenc_halt h,
      assemble_rawRow (op := .setow) (fun _ => rfl) h, assemble_rawRow (op := .ctrlenc) (fun _ => rfl) h⟩
  · show ∀ row ∈ allModes.map (fun m => (modeWord m, m.byte)), _
    rw [List.forall_mem_map]
    exact fun m _ => ⟨assemble_modeRow (op := .setow) (fun _ => rfl) m, assemble_modeRow (op := .ctrlenc) (fun _ => rfl) m⟩
  · refine ⟨assemble_twoByteRow (op := .rdram) (i := .rdram a n) hu hw ?_, assemble_twoByteRow (op := .pread) (i := .pread a n) hu hw ?_⟩ <;>
      simp only [request, hu.byte, hw.byte]
  · refine ⟨(assemble_dataRow (op := .wrram) (f := .wrram) hu hw hitems hne ?_).trans (ite_count_eq 0x05 a),
      (assemble_dataRow (op := .pwrite) (f := .pwrite) hu hw hitems hne ?_).trans (ite_count_eq 0x16 a)⟩ <;>
      simp only [request, hu.byte, hw.byte]

end Sys2Proof.Proofs
